-- ==== Sys2Proof/Word.lean ====
section
/-! DEFINITION. The two unsigned widths of the block and its byte sequences (00_scope.md R11). -/

namespace Sys2Proof

/-- `u8` (00_scope.md R11): bit 0 is the least significant bit, bit 7 the top bit (R10). -/
abbrev Byte := BitVec 8

/-- `u16` (00_scope.md R11): bit 15 is the top bit (R10). -/
abbrev Word := BitVec 16

/-- `bytes` (00_scope.md R11): a finite sequence of bytes, possibly empty, offsets from 0 (R12). -/
abbrev Bytes := List Byte

end Sys2Proof
end

