-- ==== Sys2Proof/Config.lean ====
section
/-! DEFINITION. The fixed constants and the open parameters of the block (00_scope.md R9). The block has no value
left free by the spec, so there is no opaque constant here. -/

namespace Sys2Proof.Config

/-- `CRC_POLY` (00_scope.md R9). -/
def crcPoly : Word := 0x1021#16

/-- `CRC_SEED_FRAME` (00_scope.md R9). -/
def crcSeedFrame : Word := 0x0000#16

/-- `LEN_SHORT_LIMIT` (00_scope.md R9): values below it have the one-byte form. -/
def lenShortLimit : Nat := 128

/-- `LEN_MAX` (00_scope.md R9): the largest value fifteen bits hold. -/
def lenMax : Nat := 32767

/-- `MIN_DECODE_BYTES` (00_scope.md R9). -/
def minDecodeBytes : Nat := 4

/-- `TRAILER_LEN` (00_scope.md R9): the checksum's bytes. -/
def trailerLen : Nat := 2

end Sys2Proof.Config

namespace Sys2Proof

/-- `LEN_LT2_POLICY` (93_implementation_defined.md I1): what a decoded length value of 0 or 1 gives. -/
inductive LenLt2Policy where
  /-- The normative reading (42_frame_decode.md R124): the result is `Invalid`. -/
  | invalid
  /-- The alternative: the operation has no result and the run is marked faulted. -/
  | fault
  deriving DecidableEq, Repr

/-- The parameters fixed when the block is instantiated (00_scope.md R9, 10_state.md R25); no rule constrains the
marker bytes (92_eei_decisions.md D12). -/
structure Params where
  /-- `IM0`, the inbound marker's byte at offset 0. -/
  im0 : Byte
  /-- `IM1`, the inbound marker's byte at offset 1. -/
  im1 : Byte
  /-- `OM0` to `OM3`, the outbound marker's four bytes in order. -/
  om0 : Byte
  om1 : Byte
  om2 : Byte
  om3 : Byte
  /-- `ACC_CAP`; `none` is infinity. -/
  accCap : Option Nat
  /-- `LEN_LT2_POLICY`. -/
  lenLt2 : LenLt2Policy
  deriving DecidableEq, Repr

/-- `IN_MARKER` as a byte sequence (20_memory.md R41: compared byte by byte, in order). -/
def Params.inMarker (p : Params) : Bytes := [p.im0, p.im1]

/-- `OUT_MARKER` as a byte sequence. -/
def Params.outMarker (p : Params) : Bytes := [p.om0, p.om1, p.om2, p.om3]

/-- The defaults the spec suggests (00_scope.md R9). PRESUMED marker values (general knowledge, 93 G1; log entry 1,
unsafe for a claim that uses them); the step function is parametric in all of them. -/
def Params.default : Params where
  im0 := 0xAA#8
  im1 := 0x55#8
  om0 := 0xC9#8
  om1 := 0x36#8
  om2 := 0xB8#8
  om3 := 0x47#8
  accCap := none
  lenLt2 := .invalid

end Sys2Proof
end

