-- ==== Sys2Proof/Syntax.lean ====
section
/-! DEFINITION. The instructions (one constructor per row of spec/opcode_table.json), the nine select codes, and the
forms in which an operation or a wire item is handed to the block (30_encoding.md R75, R76, R80). -/

namespace Sys2Proof

/-- One constructor per row of the opcode table: nine operations (30_encoding.md R75), then six wire formats (R61,
R62, R63). A wire row is a format and not an operation of R75: DESIGN CHOICE, log entry 5. -/
inductive Instr where
  /-- `NOP` (43_reassembler.md R155). -/
  | nop
  /-- `CRC_INIT seed` (40_crc.md R96). -/
  | crcInit (seed : Word)
  /-- `CRC_UPDATE b` (40_crc.md R97). -/
  | crcUpdate (b : Byte)
  /-- `CRC_READ` (40_crc.md R98). -/
  | crcRead
  /-- `CRC_COMPUTE data, initial` (40_crc.md R99). -/
  | crcCompute (data : Bytes) (initial : Word)
  /-- `ENCODE cmd1, cmd2, payload` (41_frame_encode.md R111). -/
  | encode (cmd1 cmd2 : Byte) (payload : Bytes)
  /-- `DECODE buffer` (42_frame_decode.md R122). -/
  | decode (buffer : Bytes)
  /-- `FEED chunk` (43_reassembler.md R148). -/
  | feed (chunk : Bytes)
  /-- `RX_CLEAR` (43_reassembler.md R152). -/
  | rxClear
  /-- `FRAME_IN_SHORT` (30_encoding.md R61): marker, header command byte, 7-bit length value, and the bytes that
  follow the header (payload and checksum; fewer or more are allowed, R121). -/
  | frameInShort (im0 im1 hc : Byte) (len : BitVec 7) (rest : Bytes)
  /-- `FRAME_IN_EXT` (30_encoding.md R61): the same with a 15-bit length value. -/
  | frameInExt (im0 im1 hc : Byte) (len : BitVec 15) (rest : Bytes)
  /-- `FRAME_OUT_SHORT` (30_encoding.md R62): marker, two command bytes, 7-bit length value, payload; the checksum
  is what the engine appends. -/
  | frameOutShort (om0 om1 om2 om3 cmd1 cmd2 : Byte) (len : BitVec 7) (payload : Bytes)
  /-- `FRAME_OUT_EXT` (30_encoding.md R62): the same with a 15-bit length value. -/
  | frameOutExt (om0 om1 om2 om3 cmd1 cmd2 : Byte) (len : BitVec 15) (payload : Bytes)
  /-- `LEN_SHORT` (30_encoding.md R63): a one-byte length field. -/
  | lenShort (v : BitVec 7)
  /-- `LEN_EXT` (30_encoding.md R63): a two-byte length field, most significant byte first. -/
  | lenExt (v : BitVec 15)
  deriving DecidableEq, Repr

/-- The nine operations an owner can select (30_encoding.md R75). -/
inductive Select where
  | nop
  | crcInit
  | crcUpdate
  | crcRead
  | crcCompute
  | encode
  | decode
  | feed
  | rxClear
  deriving DecidableEq, Repr

/-- One operand of a command (30_encoding.md R76): a `u8`, a `u16` (one value, so it has no byte order), or a `bytes`
operand (a length and that many bytes, which is what a list is). -/
inductive Operand where
  | u8 (v : Byte)
  | u16 (v : Word)
  | bytes (data : Bytes)
  deriving DecidableEq, Repr

/-- A command: the 4-bit select code followed by its operands in order (30_encoding.md R76). -/
structure Command where
  op : BitVec 4
  operands : List Operand
  deriving DecidableEq, Repr

/-- Which wire format a presented byte string is read as (30_encoding.md R80): the bytes alone do not tell an inbound
header from an outbound one or from a bare length field. -/
inductive WireKind where
  | inbound
  | outbound
  | lengthField
  deriving DecidableEq, Repr

/-- What one invocation hands to the block: a command, or (DESIGN CHOICE, log entry 5) a wire item. -/
inductive Item where
  | command (c : Command)
  | wire (kind : WireKind) (bytes : Bytes)
  deriving DecidableEq, Repr

/-- Why an item is no instruction. -/
inductive Reject where
  /-- The select code is 0x9 to 0xF (30_encoding.md R77); the operands are not looked at (60_exceptions.md R195). -/
  | reservedSelectCode
  /-- The operands are not those of the operation, in number or kind (30_encoding.md R75, R76). -/
  | operandShape
  /-- Too few bytes for an inbound header (30_encoding.md R68); the bytes are kept, since `Decode` has a result for
  them (42_frame_decode.md R121). -/
  | noInboundHeader (bytes : Bytes)
  /-- Too few bytes for an outbound header (30_encoding.md R62). -/
  | noOutboundHeader
  /-- Not exactly one length field (30_encoding.md R63). -/
  | noLengthField
  deriving DecidableEq, Repr

end Sys2Proof
end

