-- ==== Sys2Proof/Machine/State.lean ====
section
/-! DEFINITION. The state of the block as plain data, the results an operation returns, the inputs an owner can give,
and the reasons a step can stop (10_state.md R20 to R30, 30_encoding.md R76, R77). -/

namespace Sys2Proof.Machine

/-- The three-way result of `Decode` (42_frame_decode.md R120). -/
inductive FrameResult where
  /-- Not enough bytes yet: nothing is decided. -/
  | incomplete
  /-- No valid frame starts at offset 0, and no extension of the buffer can change that. -/
  | invalid
  /-- A valid frame: header size 4 or 5, the bytes it occupies from offset 0, and the payload. -/
  | valid (headerSize totalLen : Nat) (payload : Bytes)
  deriving DecidableEq, Repr

/-- The results an operation returns beside its status `OK` (30_encoding.md R75, R76). -/
inductive Result where
  /-- Status only. -/
  | none
  /-- `value : u16` of `CRC_READ` and `CRC_COMPUTE`. -/
  | value (v : Word)
  /-- `frame : bytes` of `ENCODE`; also of the two outbound wire rows. -/
  | frame (bytes : Bytes)
  /-- The decode result of `DECODE`; also of the two inbound wire rows. -/
  | decoded (r : FrameResult)
  /-- The payloads of one `FEED`, in emission order. -/
  | emitted (payloads : List Bytes)
  /-- Value and size of a length field (R65), of the two length rows. -/
  | lengthValue (v size : Nat)
  deriving DecidableEq, Repr

/-- What one invocation hands back: `OK` with results, or a refusal, which returns nothing but its status code
(30_encoding.md R77, 60_exceptions.md R193). A refusal here is a result and the machine goes on. -/
inductive Response where
  | ok (r : Result)
  | refusedBadOp
  | refusedTooLong
  | refusedOverflow
  deriving DecidableEq, Repr

/-- What the owner can do next (00_scope.md R8): invoke, or apply reset between operations (70_reset_and_hazards.md
R221). The last two are the uses to which the spec gives no step (R232, R221). -/
inductive Event where
  | invoke (item : Item)
  | reset
  /-- Two invocations that overlap in time (70_reset_and_hazards.md R232). -/
  | overlap (first second : Item)
  /-- A reset while an operation is in progress (70_reset_and_hazards.md R221). -/
  | resetDuring (item : Item)
  deriving DecidableEq, Repr

/-- The reasons a step stops with a fault. -/
inductive Fault where
  /-- Raised by `Decode` (from `DECODE`, `FEED` and the inbound wire rows) on a length value of 0 or 1, and only when
  the parameter `LEN_LT2_POLICY` is `fault` (93_implementation_defined.md I1). Safe: the run stops. -/
  | lengthBelowTwo
  deriving DecidableEq, Repr

/-- The reasons a step is given no meaning. -/
inductive Refusal where
  /-- Raised by no arm: every instruction has its meaning. Safe. -/
  | notModelled (mnemonic : String)
  /-- Raised by the fetch on a command whose operands are not those of its select code (30_encoding.md R76 gives a
  command no other form). Safe. -/
  | malformedCommand
  /-- Raised by the fetch on wire bytes too few or too many for the format they are presented as. Safe. -/
  | malformedWireItem
  /-- Raised by the fetch on two overlapping invocations (70_reset_and_hazards.md R232, 93 I5). Safe. -/
  | overlappingInvocation
  /-- Raised by the fetch on a reset during an operation (70_reset_and_hazards.md R221, 93 I6). Safe. -/
  | resetDuringOperation
  deriving DecidableEq, Repr

end Sys2Proof.Machine

namespace Sys2Proof.Machine

/-- The block's state `crc_reg`, `acc` (10_state.md R20, "the complete mutable architectural state"), beside three
fields of the model's own: the instance's parameters, which no step writes (R25; log entry 1), the owner's inputs to
come (log entry 2) and the results handed back, which no operation reads (R26, R28; log entry 3). -/
structure State where
  /-- The parameters of this instance. -/
  params : Params
  /-- `crc_reg` (10_state.md R23). -/
  crcReg : Word
  /-- `acc` (10_state.md R24): offset 0 is the oldest retained byte. -/
  acc : Bytes
  /-- The owner's inputs still to come, oldest first. -/
  pending : List Event
  /-- The responses handed back, oldest first. -/
  responses : List Response
  deriving DecidableEq, Repr

/-- The reset values of 10_state.md R30 under any parameters, with nothing invoked and nothing returned. -/
def State.resetWith (p : Params) : State where
  params := p
  crcReg := 0x0000#16
  acc := []
  pending := []
  responses := []

/-- The block right after reset (10_state.md R30), instantiated with the spec's suggested parameters (log entry 1). -/
def State.reset : State := State.resetWith Params.default

end Sys2Proof.Machine
end

