-- ==== Sys2Proof/Machine/Flags.lean ====
section
/-! DEFINITION. The block has no flags (10_state.md R26); what stands in their place are the status codes of responses
(30_encoding.md R77) and the tags of decode results (30_encoding.md R76, 60_exceptions.md R191). -/

namespace Sys2Proof.Machine

/-- The 2-bit status code (30_encoding.md R77). -/
def Response.status : Response → BitVec 2
  | .ok _ => 0#2
  | .refusedBadOp => 1#2
  | .refusedTooLong => 2#2
  | .refusedOverflow => 3#2

/-- The 2-bit tag of a decode result (30_encoding.md R76); 3 is never produced (60_exceptions.md R191). -/
def FrameResult.tag : FrameResult → BitVec 2
  | .incomplete => 0#2
  | .invalid => 1#2
  | .valid _ _ _ => 2#2

end Sys2Proof.Machine
end

