-- ==== Sys2Proof/Machine/Operands.lean ====
section
/-! DEFINITION. Reading and writing multi-byte values in byte sequences: slices, byte order, and the length field's
encoder and decoder (00_scope.md R12, R13, 30_encoding.md R64, R65). -/

namespace Sys2Proof.Machine

/-- `s[i]` (00_scope.md R12). Every use is inside the sequence (20_memory.md R44); outside it this is 0 (log entry 14:
never read). -/
def byteAt (s : Bytes) (i : Nat) : Byte := s.getD i 0#8

/-- `s[a..b)` (00_scope.md R12), for `a ≤ b ≤ len(s)`. -/
def slice (s : Bytes) (a b : Nat) : Bytes := (s.take b).drop a

/-- `high_byte(r)` (00_scope.md R13). -/
def highByte (r : Word) : Byte := (r >>> 8).setWidth 8

/-- `BE16(v)` (00_scope.md R13): most significant byte first. -/
def be16 (v : Word) : Bytes := [highByte v, v.setWidth 8]

/-- `U16BE(h, l)` (00_scope.md R13). -/
def u16be (h l : Byte) : Word := (h.setWidth 16 <<< 8) ||| l.setWidth 16

/-- `LenEnc(v)` (30_encoding.md R64), for `v ≤ 32767`: one byte below 128, else two with the flag bit set in the
first. -/
def lenEnc (v : Nat) : Bytes :=
  if v < Config.lenShortLimit then [BitVec.ofNat 8 v]
  else [0x80#8 ||| BitVec.ofNat 8 (v / 256), BitVec.ofNat 8 (v % 256)]

/-- `LenDec(b0, b1)` (30_encoding.md R65): value and size of a length field; `b1` is used in the two-byte form only. -/
def lenDec (b0 b1 : Byte) : Nat × Nat :=
  if b0 &&& 0x80#8 ≠ 0#8 then (((b0 &&& 0x7F#8).toNat <<< 8) ||| b1.toNat, 2)
  else (b0.toNat, 1)

end Sys2Proof.Machine
end

