-- ==== Sys2Proof/Machine/Checksum.lean ====
section
/-! DEFINITION. The CRC16 functions: table, byte step, fold (40_crc.md R90 to R92). No reflection, no final XOR. -/

namespace Sys2Proof.Machine

/-- One of the eight shifts of 40_crc.md R90: the top bit is tested before the shift, and the bit shifted out is
dropped. -/
def crcShift (r : Word) : Word :=
  if r &&& 0x8000#16 ≠ 0#16 then (r <<< 1) ^^^ Config.crcPoly else r <<< 1

/-- Eight shifts. -/
def crcShift8 (r : Word) : Word :=
  crcShift (crcShift (crcShift (crcShift (crcShift (crcShift (crcShift (crcShift r)))))))

/-- `CRC_TABLE[b]` (40_crc.md R90). The table is a constant (10_state.md R27), held as the function of its index that
builds it (log entry 15). -/
def crcTable (b : Byte) : Word := crcShift8 (b.setWidth 16 <<< 8)

/-- `CrcStep(reg, b)` (40_crc.md R91). -/
def crcStep (reg : Word) (b : Byte) : Word := (reg <<< 8) ^^^ crcTable (highByte reg ^^^ b)

/-- `Crc16(data, initial)` (40_crc.md R92). -/
def crc16 : Bytes → Word → Word
  | [], reg => reg
  | b :: data, reg => crc16 data (crcStep reg b)

/-- The frame checksum: `Crc16` with the frame seed (30_encoding.md R69). -/
def frameChecksum (data : Bytes) : Word := crc16 data Config.crcSeedFrame

end Sys2Proof.Machine
end

