-- ==== Sys2Proof/Machine/Codec.lean ====
section
/-! DEFINITION. The frame codec's pure functions: `Encode` (41_frame_encode.md R110), `Decode` (42_frame_decode.md
R121) and the inbound constructor `MkInbound` (30_encoding.md R70). -/

namespace Sys2Proof.Machine

/-- A frame's body with its checksum appended, big-endian (30_encoding.md R69). -/
def sealFrame (body : Bytes) : Bytes := body ++ be16 (frameChecksum body)

/-- `Encode(cmd1, cmd2, payload)` (41_frame_encode.md R110), for payloads of at most 32767 bytes. -/
def frameEncode (p : Params) (cmd1 cmd2 : Byte) (payload : Bytes) : Bytes :=
  sealFrame (p.outMarker ++ [cmd1, cmd2] ++ lenEnc payload.length ++ payload)

/-- `MkInbound(hc, p)` (30_encoding.md R70): the canonical inbound frame of a payload; no operation builds it. -/
def mkInbound (p : Params) (hc : Byte) (payload : Bytes) : Bytes :=
  sealFrame (p.inMarker ++ [hc] ++ lenEnc (payload.length + Config.trailerLen) ++ payload)

/-- Step D5 of 42_frame_decode.md R121 on a complete candidate: a length value below 2 first (R124; the parameter of
93 I1), then the checksum. -/
def decodeComplete (p : Params) (buffer : Bytes) (len headerSize : Nat) : Except Fault FrameResult :=
  let totalLen := headerSize + len
  if len < Config.trailerLen then
    match p.lenLt2 with
    | .invalid => .ok .invalid
    | .fault => .error .lengthBelowTwo
  else if frameChecksum (buffer.take (totalLen - 2)) ≠ u16be (byteAt buffer (totalLen - 2)) (byteAt buffer (totalLen - 1)) then
    .ok .invalid
  else .ok (.valid headerSize totalLen (slice buffer headerSize (totalLen - 2)))

/-- `Decode(buffer)`, steps D1 to D5 in the normative order (42_frame_decode.md R121, R123). -/
def frameDecode (p : Params) (buffer : Bytes) : Except Fault FrameResult :=
  if buffer.length < Config.minDecodeBytes then .ok .incomplete
  else if byteAt buffer 0 ≠ p.im0 ∨ byteAt buffer 1 ≠ p.im1 then .ok .invalid
  else if byteAt buffer 3 &&& 0x80#8 ≠ 0#8 ∧ buffer.length < 5 then .ok .incomplete
  else
    let field := lenDec (byteAt buffer 3) (byteAt buffer 4)
    let headerSize := 3 + field.2
    if buffer.length < headerSize + field.1 then .ok .incomplete
    else decodeComplete p buffer field.1 headerSize

end Sys2Proof.Machine
end

