-- ==== Sys2Proof/Machine/Reassembler.lean ====
section
/-! DEFINITION. The stream synchroniser's pure functions: `FindMarker` (43_reassembler.md R141) and the loop of `FEED`
(43_reassembler.md R140 to R147). -/

namespace Sys2Proof.Machine

/-- `FindMarker(a)` (43_reassembler.md R141): the least offset at which both inbound marker bytes stand. -/
def findMarker (p : Params) : Bytes → Option Nat
  | x :: y :: rest =>
    if x = p.im0 ∧ y = p.im1 then some 0
    else match findMarker p (y :: rest) with
      | some i => some (i + 1)
      | none => none
  | _ => none

/-- The two labels of 43_reassembler.md R140 that a `goto` names. -/
inductive Label where
  | s1
  | s2
  deriving DecidableEq, Repr

/-- The three stops of the loop (43_reassembler.md R156). -/
inductive Stop where
  /-- S1: fewer than 4 bytes are held. -/
  | tooShort
  /-- S3: no marker; the accumulator was cleared. -/
  | cleared
  /-- S5: an incomplete candidate is held. -/
  | waiting
  deriving DecidableEq, Repr

/-- What one run of the loop leaves: the accumulator, the emitted payloads in order, and where it stopped (the last
is not a result of `FEED`). -/
structure Reassembly where
  acc : Bytes
  emitted : List Bytes
  stop : Stop
  deriving DecidableEq, Repr

/-- The loop from a label on, at most `fuel` passes (43_reassembler.md R140). One pass more than the bytes held is
always enough (R149), so the first line is never reached from `reassemble`: log entry 13. -/
def feedLoop (p : Params) : Nat → Label → Bytes → List Bytes → Except Fault Reassembly
  | 0, _, acc, emitted => .ok ⟨acc, emitted, .waiting⟩
  | fuel + 1, label, acc, emitted =>
    if label = .s1 ∧ acc.length < Config.minDecodeBytes then .ok ⟨acc, emitted, .tooShort⟩
    else match findMarker p acc with
      | none => .ok ⟨[], emitted, .cleared⟩
      | some (i + 1) => feedLoop p fuel .s1 (acc.drop (i + 1)) emitted
      | some 0 =>
        match frameDecode p acc with
        | .error f => .error f
        | .ok .incomplete => .ok ⟨acc, emitted, .waiting⟩
        | .ok .invalid => feedLoop p fuel .s2 (acc.drop 2) emitted
        | .ok (.valid _ totalLen payload) => feedLoop p fuel .s1 (acc.drop totalLen) (emitted ++ [payload])

/-- `Reassemble(acc0, chunk)` (43_reassembler.md R140): S0 appends the whole chunk (R142), then the loop. -/
def reassemble (p : Params) (acc0 chunk : Bytes) : Except Fault Reassembly :=
  feedLoop p ((acc0 ++ chunk).length + 1) .s1 (acc0 ++ chunk) []

end Sys2Proof.Machine
end

