-- ==== Sys2Proof/Machine/Ops.lean ====
section
/-! DEFINITION. The named operations over the state that the meanings share: returning a response, writing `crc_reg`
and `acc`, answering with a decode result, the capacity test, refusing, reset. The block takes no exceptions
(60_exceptions.md R192); a refusal is the shared operation in their place. -/

namespace Sys2Proof.Machine

/-- What every step of the block answers. -/
abbrev StepOutcome := Host.Outcome State Fault Refusal

/-- A response is handed to the owner; the block keeps no record of it (10_state.md R26). -/
def State.respond (s : State) (r : Response) : State := { s with responses := s.responses ++ [r] }

/-- `crc_reg <- v`. -/
def State.setCrc (s : State) (v : Word) : State := { s with crcReg := v }

/-- `acc <- a`. -/
def State.setAcc (s : State) (a : Bytes) : State := { s with acc := a }

/-- `MemRead(addr, n)` on the accumulator (20_memory.md R44): defined only inside it. -/
def State.memRead (s : State) (addr n : Nat) : Option Bytes :=
  if addr + n ≤ s.acc.length then some (slice s.acc addr (addr + n)) else none

/-- An operation performed: status `OK` and its results. -/
def answer (r : Result) (s : State) : StepOutcome := .next (s.respond (.ok r))

/-- An operation refused: its status code, no state change, no other result (60_exceptions.md R193). -/
def refuse (r : Response) (s : State) : StepOutcome := .next (s.respond r)

/-- `OK, Decode(buffer)` (42_frame_decode.md R122), or the fault of the parameter of 93 I1. -/
def answerDecode (buffer : Bytes) (s : State) : StepOutcome :=
  match frameDecode s.params buffer with
  | .error f => .fault f
  | .ok r => answer (.decoded r) s

/-- `OK, frame` for a frame's body: its checksum is appended (30_encoding.md R69). -/
def answerSealed (body : Bytes) (s : State) : StepOutcome := answer (.frame (sealFrame body)) s

/-- `OK` with value and size of the length field that `field` begins with (30_encoding.md R65). -/
def answerLength (field : Bytes) (s : State) : StepOutcome :=
  answer (.lengthValue (lenDec (byteAt field 0) (byteAt field 1)).1 (lenDec (byteAt field 0) (byteAt field 1)).2) s

/-- The capacity test of a `FEED` (20_memory.md R47, 43_reassembler.md R148). -/
def overflows (s : State) (chunk : Bytes) : Bool :=
  match s.params.accCap with
  | none => false
  | some cap => decide (cap < s.acc.length + chunk.length)

/-- The reset input (70_reset_and_hazards.md R220): nothing is emitted, the parameters stay. -/
def State.applyReset (s : State) : State := { s with crcReg := 0x0000#16, acc := [] }

end Sys2Proof.Machine
end

