-- ==== Sys2Proof/Machine/CrcUnit.lean ====
section
/-! DEFINITION. The operations of the CRC generator (40_crc.md R96 to R99). -/

namespace Sys2Proof.Machine

/-- `CRC_INIT seed` (40_crc.md R96). -/
def execCrcInit (seed : Word) (s : State) : StepOutcome := answer .none (s.setCrc seed)

/-- `CRC_UPDATE b` (40_crc.md R97). -/
def execCrcUpdate (b : Byte) (s : State) : StepOutcome := answer .none (s.setCrc (crcStep s.crcReg b))

/-- `CRC_READ` (40_crc.md R98): the read clears nothing. -/
def execCrcRead (s : State) : StepOutcome := answer (.value s.crcReg) s

/-- `CRC_COMPUTE data, initial` (40_crc.md R99): `crc_reg` is neither used nor changed. -/
def execCrcCompute (data : Bytes) (initial : Word) (s : State) : StepOutcome := answer (.value (crc16 data initial)) s

end Sys2Proof.Machine
end

