-- ==== Sys2Proof/Machine/FrameUnit.lean ====
section
/-! DEFINITION. The operations of the frame codec (41_frame_encode.md R111, 42_frame_decode.md R122). -/

namespace Sys2Proof.Machine

/-- `ENCODE cmd1, cmd2, payload` (41_frame_encode.md R111): the refusal test comes first (R112, 60_exceptions.md
R195). -/
def execEncode (cmd1 cmd2 : Byte) (payload : Bytes) (s : State) : StepOutcome :=
  if payload.length > Config.lenMax then refuse .refusedTooLong s
  else answer (.frame (frameEncode s.params cmd1 cmd2 payload)) s

/-- `DECODE buffer` (42_frame_decode.md R122). -/
def execDecode (buffer : Bytes) (s : State) : StepOutcome := answerDecode buffer s

end Sys2Proof.Machine
end

