-- ==== Sys2Proof/Machine/StreamUnit.lean ====
section
/-! DEFINITION. The operations of the stream reassembler (43_reassembler.md R148, R152) and `NOP` (R155). -/

namespace Sys2Proof.Machine

/-- `FEED chunk` (43_reassembler.md R148): the capacity test comes before the append, so a refusal appends nothing
(R142). -/
def execFeed (chunk : Bytes) (s : State) : StepOutcome :=
  if overflows s chunk then refuse .refusedOverflow s
  else match reassemble s.params s.acc chunk with
    | .error f => .fault f
    | .ok r => answer (.emitted r.emitted) (s.setAcc r.acc)

/-- `RX_CLEAR` (43_reassembler.md R152). -/
def execRxClear (s : State) : StepOutcome := answer .none (s.setAcc [])

/-- `NOP` (43_reassembler.md R155). -/
def execNop (s : State) : StepOutcome := answer .none s

end Sys2Proof.Machine
end

