-- ==== Sys2Proof/Decode.lean ====
section
/-! DEFINITION. The decoder from items (commands and wire bytes) to instructions, total, rejecting by name; the encoder
beside it; and the opcode table's numbering of their bits (30_encoding.md R61 to R63, R75 to R77, R80). -/

namespace Sys2Proof

/-! ## Fields -/

/-- The one-byte length field `0LLLLLLL` (30_encoding.md R63). -/
def shortField (v : BitVec 7) : Bytes := [0#1 ++ v]

/-- The two-byte length field `1LLLLLLL LLLLLLLL`, bits 14..8 in the first byte (30_encoding.md R63). -/
def extField (v : BitVec 15) : Bytes := [1#1 ++ v.extractLsb' 8 7, v.extractLsb' 0 8]

/-- Bit 7 of a length field's first byte, which tells the two forms apart (30_encoding.md R63). -/
def extendedForm (b0 : Byte) : Bool := b0.getLsbD 7

/-- The value of a one-byte field. -/
def shortValue (b0 : Byte) : BitVec 7 := b0.extractLsb' 0 7

/-- The value of a two-byte field, most significant byte first. -/
def extValue (b0 b1 : Byte) : BitVec 15 := b0.extractLsb' 0 7 ++ b1

/-! ## Select codes -/

/-- The select code of an operation (30_encoding.md R75). -/
def Select.code : Select → BitVec 4
  | .nop => 0x0#4
  | .crcInit => 0x1#4
  | .crcUpdate => 0x2#4
  | .crcRead => 0x3#4
  | .crcCompute => 0x4#4
  | .encode => 0x5#4
  | .decode => 0x6#4
  | .feed => 0x7#4
  | .rxClear => 0x8#4

/-- The operation a select code names; 0x9 to 0xF are reserved (30_encoding.md R77). -/
def selectOf (op : BitVec 4) : Option Select :=
  match op.toNat with
  | 0 => some .nop
  | 1 => some .crcInit
  | 2 => some .crcUpdate
  | 3 => some .crcRead
  | 4 => some .crcCompute
  | 5 => some .encode
  | 6 => some .decode
  | 7 => some .feed
  | 8 => some .rxClear
  | _ => none

/-! ## The decoder -/

/-- The operation on its operands, in the order of 30_encoding.md R75. -/
def decodeOperands (sel : Select) (operands : List Operand) : Except Reject Instr :=
  match sel with
  | .nop => match operands with
    | [] => .ok .nop
    | _ => .error .operandShape
  | .crcInit => match operands with
    | [.u16 seed] => .ok (.crcInit seed)
    | _ => .error .operandShape
  | .crcUpdate => match operands with
    | [.u8 b] => .ok (.crcUpdate b)
    | _ => .error .operandShape
  | .crcRead => match operands with
    | [] => .ok .crcRead
    | _ => .error .operandShape
  | .crcCompute => match operands with
    | [.bytes data, .u16 initial] => .ok (.crcCompute data initial)
    | _ => .error .operandShape
  | .encode => match operands with
    | [.u8 cmd1, .u8 cmd2, .bytes payload] => .ok (.encode cmd1 cmd2 payload)
    | _ => .error .operandShape
  | .decode => match operands with
    | [.bytes buffer] => .ok (.decode buffer)
    | _ => .error .operandShape
  | .feed => match operands with
    | [.bytes chunk] => .ok (.feed chunk)
    | _ => .error .operandShape
  | .rxClear => match operands with
    | [] => .ok .rxClear
    | _ => .error .operandShape

/-- A command: the select code is tested before the operands (60_exceptions.md R195). -/
def decodeCommand (c : Command) : Except Reject Instr :=
  match selectOf c.op with
  | none => .error .reservedSelectCode
  | some sel => decodeOperands sel c.operands

/-- An inbound header and what follows it (30_encoding.md R61, R68). -/
def decodeInbound (bytes : Bytes) : Except Reject Instr :=
  match bytes with
  | im0 :: im1 :: hc :: b0 :: rest =>
    if extendedForm b0 then
      match rest with
      | b1 :: rest' => .ok (.frameInExt im0 im1 hc (extValue b0 b1) rest')
      | [] => .error (.noInboundHeader bytes)
    else .ok (.frameInShort im0 im1 hc (shortValue b0) rest)
  | _ => .error (.noInboundHeader bytes)

/-- An outbound header and the payload that follows it (30_encoding.md R62). -/
def decodeOutbound (bytes : Bytes) : Except Reject Instr :=
  match bytes with
  | om0 :: om1 :: om2 :: om3 :: cmd1 :: cmd2 :: b0 :: rest =>
    if extendedForm b0 then
      match rest with
      | b1 :: payload => .ok (.frameOutExt om0 om1 om2 om3 cmd1 cmd2 (extValue b0 b1) payload)
      | [] => .error .noOutboundHeader
    else .ok (.frameOutShort om0 om1 om2 om3 cmd1 cmd2 (shortValue b0) rest)
  | _ => .error .noOutboundHeader

/-- Exactly one length field (30_encoding.md R63). -/
def decodeLengthField (bytes : Bytes) : Except Reject Instr :=
  match bytes with
  | [b0] => if extendedForm b0 then .error .noLengthField else .ok (.lenShort (shortValue b0))
  | [b0, b1] => if extendedForm b0 then .ok (.lenExt (extValue b0 b1)) else .error .noLengthField
  | _ => .error .noLengthField

/-- The decoder, total on every item. -/
def decode : Item → Except Reject Instr
  | .command c => decodeCommand c
  | .wire .inbound bytes => decodeInbound bytes
  | .wire .outbound bytes => decodeOutbound bytes
  | .wire .lengthField bytes => decodeLengthField bytes

/-! ## The encoder -/

/-- The item of an instruction: select code and operands (30_encoding.md R75, R76) or wire bytes (R61 to R63). -/
def encode : Instr → Item
  | .nop => .command ⟨0x0#4, []⟩
  | .crcInit seed => .command ⟨0x1#4, [.u16 seed]⟩
  | .crcUpdate b => .command ⟨0x2#4, [.u8 b]⟩
  | .crcRead => .command ⟨0x3#4, []⟩
  | .crcCompute data initial => .command ⟨0x4#4, [.bytes data, .u16 initial]⟩
  | .encode cmd1 cmd2 payload => .command ⟨0x5#4, [.u8 cmd1, .u8 cmd2, .bytes payload]⟩
  | .decode buffer => .command ⟨0x6#4, [.bytes buffer]⟩
  | .feed chunk => .command ⟨0x7#4, [.bytes chunk]⟩
  | .rxClear => .command ⟨0x8#4, []⟩
  | .frameInShort im0 im1 hc len rest => .wire .inbound ([im0, im1, hc] ++ shortField len ++ rest)
  | .frameInExt im0 im1 hc len rest => .wire .inbound ([im0, im1, hc] ++ extField len ++ rest)
  | .frameOutShort om0 om1 om2 om3 cmd1 cmd2 len payload =>
    .wire .outbound ([om0, om1, om2, om3, cmd1, cmd2] ++ shortField len ++ payload)
  | .frameOutExt om0 om1 om2 om3 cmd1 cmd2 len payload =>
    .wire .outbound ([om0, om1, om2, om3, cmd1, cmd2] ++ extField len ++ payload)
  | .lenShort v => .wire .lengthField (shortField v)
  | .lenExt v => .wire .lengthField (extField v)

/-! ## The opcode table's numbering (30_encoding.md R80) -/

/-- The first `n` bytes of a wire item whose table row is the number `w`: the row's leftmost character is bit 7 of the
byte at offset 0, so the number is laid out most significant byte first (30_encoding.md R80, 20_memory.md R41). -/
def bigEndianBytes (n w : Nat) : Bytes :=
  match n with
  | 0 => []
  | k + 1 => BitVec.ofNat 8 (w / 2 ^ (8 * k)) :: bigEndianBytes k w

/-- As many zero bytes as the length field of a header announces: the operand words of zeros behind a table word. -/
def announcedZeros (kind : WireKind) (bytes : Bytes) : Bytes :=
  match decode (.wire kind bytes) with
  | .ok (.frameInShort _ _ _ len _) => List.replicate len.toNat 0#8
  | .ok (.frameInExt _ _ _ len _) => List.replicate len.toNat 0#8
  | .ok (.frameOutShort _ _ _ _ _ _ len _) => List.replicate len.toNat 0#8
  | .ok (.frameOutExt _ _ _ _ _ _ len _) => List.replicate len.toNat 0#8
  | _ => []

/-- Zero operands of the operation a select code names (a zero `bytes` operand has length 0). -/
def zeroOperands (op : BitVec 4) : List Operand :=
  match selectOf op with
  | some .crcInit => [.u16 0]
  | some .crcUpdate => [.u8 0]
  | some .crcCompute => [.bytes [], .u16 0]
  | some .encode => [.u8 0, .u8 0, .bytes []]
  | some .decode => [.bytes []]
  | some .feed => [.bytes []]
  | _ => []

/-- The wire format of a table row by its width (30_encoding.md R80): inbound headers have 32 or 40 bits, outbound ones
56 or 64, length fields 8 or 16. -/
def kindOfWidth (nbits : Nat) : WireKind :=
  if nbits = 32 ∨ nbits = 40 then .inbound
  else if nbits = 56 ∨ nbits = 64 then .outbound
  else .lengthField

/-- The item whose table bits are `w`. A word of at most 8 bits below 16 is a select code, any other word of 8 bits a
length field: DESIGN CHOICE, log entry 7, since the table numbers both in one byte. -/
def itemOfTableWord (nbits w : Nat) : Item :=
  if nbits ≤ 8 ∧ w < 16 then .command ⟨BitVec.ofNat 4 w, zeroOperands (BitVec.ofNat 4 w)⟩
  else
    let header := bigEndianBytes ((nbits + 7) / 8) w
    .wire (kindOfWidth nbits) (header ++ announcedZeros (kindOfWidth nbits) header)

/-- The instruction the decoder reads from a table word (30_encoding.md R80); none where it rejects. -/
def decodeTableWord (nbits w : Nat) : Option Instr :=
  match decode (itemOfTableWord nbits w) with
  | .ok i => some i
  | .error _ => none

end Sys2Proof
end

