-- ==== Sys2Proof/Machine/WireUnit.lean ====
section
/-! DEFINITION. The six wire rows of the opcode table. They are formats; the effect given to each is the pure function
that the row's rule names for it (30_encoding.md R61 to R65, R69, R80): DESIGN CHOICE, log entries 5 and 6. None reads or
writes `crc_reg` or `acc`. -/

namespace Sys2Proof.Machine

/-- `FRAME_IN_SHORT` (30_encoding.md R61): the frame as `Decode` reads it (42_frame_decode.md R121). -/
def execFrameInShort (im0 im1 hc : Byte) (len : BitVec 7) (rest : Bytes) (s : State) : StepOutcome :=
  answerDecode ([im0, im1, hc] ++ shortField len ++ rest) s

/-- `FRAME_IN_EXT` (30_encoding.md R61), non-canonical length values included (42_frame_decode.md R127). -/
def execFrameInExt (im0 im1 hc : Byte) (len : BitVec 15) (rest : Bytes) (s : State) : StepOutcome :=
  answerDecode ([im0, im1, hc] ++ extField len ++ rest) s

/-- `FRAME_OUT_SHORT` (30_encoding.md R62): the frame as `Encode` completes it, checksum over all preceding bytes. -/
def execFrameOutShort (om0 om1 om2 om3 cmd1 cmd2 : Byte) (len : BitVec 7) (payload : Bytes) (s : State) : StepOutcome :=
  answerSealed ([om0, om1, om2, om3, cmd1, cmd2] ++ shortField len ++ payload) s

/-- `FRAME_OUT_EXT` (30_encoding.md R62). -/
def execFrameOutExt (om0 om1 om2 om3 cmd1 cmd2 : Byte) (len : BitVec 15) (payload : Bytes) (s : State) : StepOutcome :=
  answerSealed ([om0, om1, om2, om3, cmd1, cmd2] ++ extField len ++ payload) s

/-- `LEN_SHORT` (30_encoding.md R63): read by `LenDec` (R65). -/
def execLenShort (v : BitVec 7) (s : State) : StepOutcome := answerLength (shortField v) s

/-- `LEN_EXT` (30_encoding.md R63): read by `LenDec` (R65). -/
def execLenExt (v : BitVec 15) (s : State) : StepOutcome := answerLength (extField v) s

end Sys2Proof.Machine
end

