-- ==== Sys2Proof/Machine/Dispatch.lean ====
section
/-! DEFINITION. One arm per row of the opcode table, each one direct call of its meaning (30_encoding.md R75, R80). -/

namespace Sys2Proof.Machine

def exec (i : Instr) (s : State) : Host.Outcome State Fault Refusal :=
  match i with
  -- the nine operations (30_encoding.md R75)
  | .nop => Sys2Proof.Machine.execNop s
  | .crcInit seed => Sys2Proof.Machine.execCrcInit seed s
  | .crcUpdate b => Sys2Proof.Machine.execCrcUpdate b s
  | .crcRead => Sys2Proof.Machine.execCrcRead s
  | .crcCompute data initial => Sys2Proof.Machine.execCrcCompute data initial s
  | .encode cmd1 cmd2 payload => Sys2Proof.Machine.execEncode cmd1 cmd2 payload s
  | .decode buffer => Sys2Proof.Machine.execDecode buffer s
  | .feed chunk => Sys2Proof.Machine.execFeed chunk s
  | .rxClear => Sys2Proof.Machine.execRxClear s
  -- the six wire formats (30_encoding.md R61 to R63)
  | .frameInShort im0 im1 hc len rest => Sys2Proof.Machine.execFrameInShort im0 im1 hc len rest s
  | .frameInExt im0 im1 hc len rest => Sys2Proof.Machine.execFrameInExt im0 im1 hc len rest s
  | .frameOutShort om0 om1 om2 om3 cmd1 cmd2 len payload => Sys2Proof.Machine.execFrameOutShort om0 om1 om2 om3 cmd1 cmd2 len payload s
  | .frameOutExt om0 om1 om2 om3 cmd1 cmd2 len payload => Sys2Proof.Machine.execFrameOutExt om0 om1 om2 om3 cmd1 cmd2 len payload s
  | .lenShort v => Sys2Proof.Machine.execLenShort v s
  | .lenExt v => Sys2Proof.Machine.execLenExt v s

end Sys2Proof.Machine
end

