-- ==== Sys2Proof/Machine/Fetch.lean ====
section
/-! DEFINITION. Taking the owner's next input. Nothing is fetched from memory (20_memory.md R53): operations are invoked
one at a time by the owner, and which comes next is the owner's choice (10_state.md R21). -/

namespace Sys2Proof.Machine

/-- What the owner's next input asks for; the state has the input already taken. -/
inductive Fetched where
  | idle
  | run (i : Instr) (s : State)
  | rejected (why : Reject) (s : State)
  | reset (s : State)
  | noStep (why : Refusal)

/-- The owner's next input, decoded. -/
def fetch (s : State) : Fetched :=
  match s.pending with
  | [] => .idle
  | .reset :: rest => .reset { s with pending := rest }
  | .overlap _ _ :: _ => .noStep .overlappingInvocation
  | .resetDuring _ :: _ => .noStep .resetDuringOperation
  | .invoke item :: rest =>
    match decode item with
    | .ok i => .run i { s with pending := rest }
    | .error why => .rejected why { s with pending := rest }

/-- What the block does with an item that is no instruction. A reserved select code is refused with
`REFUSED_BAD_OP` (30_encoding.md R77), and bytes too few for an inbound header have a decode result
(42_frame_decode.md R121, D1 to D3); the others are no command and no format of the spec. -/
def answerReject (why : Reject) (s : State) : StepOutcome :=
  match why with
  | .reservedSelectCode => refuse .refusedBadOp s
  | .operandShape => .refused .malformedCommand
  | .noInboundHeader bytes => answerDecode bytes s
  | .noOutboundHeader => .refused .malformedWireItem
  | .noLengthField => .refused .malformedWireItem

end Sys2Proof.Machine
end

