-- ==== Sys2Proof/Machine/Step.lean ====
section
/-! DEFINITION. One step: the owner's next input is taken and answered whole (20_memory.md R43, R49). -/

namespace Sys2Proof.Machine

/-- One step. With nothing invoked the block is idle and keeps its state (60_exceptions.md R196, R205). -/
def step (s : State) : Host.Outcome State Fault Refusal :=
  match fetch s with
  | .idle => .next s
  | .run i s' => exec i s'
  | .rejected why s' => answerReject why s'
  | .reset s' => .next s'.applyReset
  | .noStep why => .refused why

/-- The state in which the owner's next input is the table word `w` (log entries 2 and 7). -/
def State.withFetchWord (s : State) (nbits w : Nat) : State :=
  { s with pending := .invoke (itemOfTableWord nbits w) :: s.pending }

end Sys2Proof.Machine
end

