-- ==== Sys2Proof/Machine/Pseudo.lean ====
section
/-! DEFINITION. The pseudo-operations of 30_encoding.md R79, each with its fixed expansion into operations, and the
owner queueing operations. No step depends on this file. -/

namespace Sys2Proof.Machine

/-- The four pseudo-operations (30_encoding.md R79). -/
inductive Pseudo where
  | crc16 (data : Bytes)
  | crcStream (data : Bytes) (seed : Word)
  | feedBytes (data : Bytes)
  | restart
  deriving DecidableEq, Repr

/-- The expansions of 30_encoding.md R79. -/
def expandPseudo : Pseudo → List Instr
  | .crc16 data => [.crcCompute data 0x0000#16]
  | .crcStream data seed => [.crcInit seed] ++ data.map .crcUpdate ++ [.crcRead]
  | .feedBytes data => data.map (fun b => .feed [b])
  | .restart => [.rxClear, .crcInit 0x0000#16]

/-- The owner's inputs that invoke operations in order (20_memory.md R49). -/
def invocations (is : List Instr) : List Event := is.map (fun i => .invoke (encode i))

/-- The state in which the owner will invoke exactly these operations. -/
def State.withProgram (s : State) (is : List Instr) : State := { s with pending := invocations is }

end Sys2Proof.Machine
end

