-- ==== Sys2Proof/Machine/Owner.lean ====
section
/-! DEFINITION. CONTEXT, NOT THE BLOCK: the two software components around it, as pure functions of what the block
returns (44_context_software.md R171 to R178; out of the block by 00_scope.md R5). No step depends on this file. -/

namespace Sys2Proof.Machine

/-! ## The StateDecoder -/

/-- Calibration flags (44_context_software.md R178). -/
structure Calibration where
  active : Bool
  leftDone : Bool
  rightDone : Bool
  deriving DecidableEq, Repr

/-- `ControllerState` (44_context_software.md R175, ten buttons by 90_conflicts.md C6). -/
structure ControllerState where
  leftX : Byte
  leftY : Byte
  rightX : Byte
  rightY : Byte
  lUp : Bool
  lDown : Bool
  rUp : Bool
  rDown : Bool
  eUp : Bool
  eDown : Bool
  fUp : Bool
  fDown : Bool
  leftClick : Bool
  rightClick : Bool
  /-- Raw, 0 to 255 (DESIGN CHOICE, log entry 23). -/
  battery : Byte
  /-- Present in the extended decode only (44_context_software.md R175). -/
  calibration : Option Calibration
  deriving DecidableEq, Repr

/-- The byte order of the buttons word, an open parameter (93 I9); the normative reading is big-endian (R177). -/
inductive ButtonsOrder where
  | bigEndian
  | littleEndian
  deriving DecidableEq, Repr

/-- The buttons word at payload offsets 8 and 9 (44_context_software.md R177). -/
def buttonsWord (order : ButtonsOrder) (payload : Bytes) : Word :=
  match order with
  | .bigEndian => u16be (byteAt payload 8) (byteAt payload 9)
  | .littleEndian => u16be (byteAt payload 9) (byteAt payload 8)

/-- The calibration flags, bits 4, 5 and 6 of payload byte 8 (44_context_software.md R178). -/
def calibrationOf (payload : Bytes) : Calibration where
  active := (byteAt payload 8).getLsbD 4
  leftDone := (byteAt payload 8).getLsbD 5
  rightDone := (byteAt payload 8).getLsbD 6

/-- `parse(payload)` (44_context_software.md R176, R177). Who selects the extended variant is not in the source (91
N19), so it is an argument (log entry 17). DESIGN CHOICE: a battery byte above 100 is kept as it is, since R175 and R177
give the range 0 to 100 and say neither to clamp nor to reject it (log entry 23). -/
def parseState (order : ButtonsOrder) (extended : Bool) (payload : Bytes) : Option ControllerState :=
  if payload.length < 14 ∨ byteAt payload 0 ≠ 0x60#8 then none
  else
    let buttons := buttonsWord order payload
    some {
      leftX := byteAt payload 1
      leftY := byteAt payload 2
      rightX := byteAt payload 3
      rightY := byteAt payload 4
      lUp := buttons.getLsbD 5
      lDown := buttons.getLsbD 4
      rUp := buttons.getLsbD 7
      rDown := buttons.getLsbD 6
      eUp := buttons.getLsbD 3
      eDown := buttons.getLsbD 1
      fUp := buttons.getLsbD 2
      fDown := buttons.getLsbD 0
      leftClick := (byteAt payload 10).getLsbD 0
      rightClick := (byteAt payload 10).getLsbD 1
      battery := byteAt payload 11
      calibration := if extended then some (calibrationOf payload) else none }

/-! ## The TransactionClient -/

/-- The block's operations in one send-and-wait cycle (44_context_software.md R171): the frame, then one `FEED` for
each read of the loop, which ends at the first emission or at the deadline; `reads` is the reads up to there. The
transport, its clearing and the deadline are outside. DESIGN CHOICE: whether the client also empties the accumulator
before a send is not in the source (R172, 91 N12), so it is the argument `clears` (log entry 20). DESIGN CHOICE: the
reads are fed even where `ENCODE` is refused, on which R171 is silent (log entry 22). -/
def sendCommand (clears : Bool) (cmd1 cmd2 : Byte) (payload : Bytes) (reads : List Bytes) : List Instr :=
  (if clears then [.rxClear] else []) ++ .encode cmd1 cmd2 payload :: reads.map .feed

/-- The reply: the first payload of the first `FEED` that emitted any (44_context_software.md R171, R172); none is the
client's timeout (R173). DESIGN CHOICE: further payloads of that `FEED` are dropped, since R172 and 91 N13 leave open
what becomes of them (log entry 21). DESIGN CHOICE: refusals of `ENCODE` and `FEED` are passed over, on which R171 is
silent, so a payload can count as the reply to a request that was never sent (log entry 22). -/
def firstReply : List Response → Option Bytes
  | [] => none
  | .ok (.emitted (payload :: _)) :: _ => some payload
  | _ :: rest => firstReply rest

/-! ## From what the block emitted to the consumer's states

The only sources of a `ControllerState` (00_scope.md R2, 44_context_software.md R175): the payloads that `FEED` emitted,
each of them checksum-validated by the block, parsed under the tag test. -/

/-- The payloads one response emits; only a `FEED` emits any (43_reassembler.md R153). -/
def Response.payloads : Response → List Bytes
  | .ok (.emitted payloads) => payloads
  | _ => []

/-- All payloads the responses emitted, in emission order. -/
def emittedPayloads (responses : List Response) : List Bytes := responses.flatMap Response.payloads

/-- The states of the streaming mode: what arrives is decoded, and a payload that is no state report is skipped
(44_context_software.md R179, R176). -/
def streamedStates (order : ButtonsOrder) (extended : Bool) (responses : List Response) : List ControllerState :=
  (emittedPayloads responses).filterMap (parseState order extended)

/-- The state of the transactional mode: the reply parsed; none is a timeout or "no update" (44_context_software.md
R171, R173, R176, R179). -/
def replyState (order : ButtonsOrder) (extended : Bool) (responses : List Response) : Option ControllerState :=
  (firstReply responses).bind (parseState order extended)

end Sys2Proof.Machine
end

