-- ==== Sys2Proof/WellFormed.lean ====
section
/-! DEFINITION. The well-formed instructions: what the tables of 30_encoding.md ask of the operands beyond their
widths. Every check concerns how a row is BUILT; the meanings are defined on ill-formed instructions too, because the
spec gives a result for each (30_encoding.md R71). -/

namespace Sys2Proof

/-- The payload fits the length field (30_encoding.md R64, 41_frame_encode.md R112). -/
def payloadFits (payload : Bytes) : Bool := decide (payload.length ≤ Config.lenMax)

/-- A whole inbound frame (30_encoding.md R61, R68): `IN_MARKER`, a length value with room for the checksum, and
exactly that many bytes behind the header. -/
def inboundWhole (p : Params) (im0 im1 : Byte) (len : Nat) (rest : Bytes) : Bool :=
  decide (im0 = p.im0) && decide (im1 = p.im1) && decide (Config.trailerLen ≤ len) && decide (rest.length = len)

/-- An outbound frame's marker and length value (30_encoding.md R62). -/
def outboundMatches (p : Params) (marker : Bytes) (len : Nat) (payload : Bytes) : Bool :=
  decide (marker = p.outMarker) && decide (payload.length = len)

/-- Well-formedness under the block's parameters. The extended outbound form is used from 128 bytes on (30_encoding.md
R62); inbound and bare length fields may be non-canonical (R66, 93 I12). -/
def Instr.wf (p : Params) : Instr → Bool
  | .nop => true
  | .crcInit _ => true
  | .crcUpdate _ => true
  | .crcRead => true
  | .crcCompute _ _ => true
  | .encode _ _ payload => payloadFits payload
  | .decode _ => true
  | .feed _ => true
  | .rxClear => true
  | .frameInShort im0 im1 _ len rest => inboundWhole p im0 im1 len.toNat rest
  | .frameInExt im0 im1 _ len rest => inboundWhole p im0 im1 len.toNat rest
  | .frameOutShort om0 om1 om2 om3 _ _ len payload => outboundMatches p [om0, om1, om2, om3] len.toNat payload
  | .frameOutExt om0 om1 om2 om3 _ _ len payload =>
    outboundMatches p [om0, om1, om2, om3] len.toNat payload && decide (Config.lenShortLimit ≤ len.toNat)
  | .lenShort _ => true
  | .lenExt _ => true

end Sys2Proof
end

