-- ==== Sys2Proof/Safety.lean ====
section
/-! DEFINITION. The terms in which claims are made: the invariant of 10_state.md R31 and R24, and the spec's second
descriptions of things the model computes one way (a loop as its passes, a decision as its cause, the CRC bit by bit,
the table as it is listed). The step function uses none of them. -/

namespace Sys2Proof.Machine

/-! ## The invariant between operations -/

/-- Case (b) of 10_state.md R31: at least 4 bytes, the inbound marker at offset 0, an incomplete candidate. -/
def waitingCandidate (p : Params) (acc : Bytes) : Prop :=
  4 ≤ acc.length ∧ acc.take 2 = p.inMarker ∧ frameDecode p acc = .ok .incomplete

/-- 10_state.md R31: fewer than 4 bytes, or a waiting candidate. -/
def accSettled (p : Params) (acc : Bytes) : Prop := acc.length < 4 ∨ waitingCandidate p acc

/-- 10_state.md R24: at most `ACC_CAP` bytes are held. -/
def accWithinCap (p : Params) (acc : Bytes) : Prop :=
  match p.accCap with
  | none => True
  | some cap => acc.length ≤ cap

/-- The invariant between operations (10_state.md R31 with R24). -/
def State.Inv (s : State) : Prop := accSettled s.params s.acc ∧ accWithinCap s.params s.acc

/-- The block's part of the state: parameters, `crc_reg`, `acc` (10_state.md R20, R25). -/
def State.SameBlock (s t : State) : Prop := s.params = t.params ∧ s.crcReg = t.crcReg ∧ s.acc = t.acc

/-- The normative treatment of a length value below 2 (42_frame_decode.md R124), the default of 93 I1. -/
def State.Normative (s : State) : Prop := s.params.lenLt2 = .invalid

/-! ## The marker and the feed loop, as the spec writes them -/

/-- An occurrence of the inbound marker at offset `i` (43_reassembler.md R141). -/
def MarkerAt (p : Params) (a : Bytes) (i : Nat) : Prop :=
  i + 1 < a.length ∧ a[i]? = some p.im0 ∧ a[i + 1]? = some p.im1

/-- Where the procedure of 43_reassembler.md R140 stands. -/
inductive Control where
  | running (label : Label) (acc : Bytes) (emitted : List Bytes)
  | stopped (result : Reassembly)

/-- The lines S1 to S5 of 43_reassembler.md R140, one rule each. -/
inductive Pass (p : Params) : Control → Control → Prop where
  | s1Stop (acc : Bytes) (emitted : List Bytes) (h : acc.length < 4) :
      Pass p (.running .s1 acc emitted) (.stopped ⟨acc, emitted, .tooShort⟩)
  | s1Scan (acc : Bytes) (emitted : List Bytes) (h : 4 ≤ acc.length) :
      Pass p (.running .s1 acc emitted) (.running .s2 acc emitted)
  | s3 (acc : Bytes) (emitted : List Bytes) (h : ∀ i, ¬ MarkerAt p acc i) :
      Pass p (.running .s2 acc emitted) (.stopped ⟨[], emitted, .cleared⟩)
  | s4 (acc : Bytes) (emitted : List Bytes) (i : Nat) (h : MarkerAt p acc i) (least : ∀ j, j < i → ¬ MarkerAt p acc j)
      (pos : 0 < i) : Pass p (.running .s2 acc emitted) (.running .s1 (acc.drop i) emitted)
  | s5Incomplete (acc : Bytes) (emitted : List Bytes) (h : MarkerAt p acc 0)
      (d : frameDecode p acc = .ok .incomplete) :
      Pass p (.running .s2 acc emitted) (.stopped ⟨acc, emitted, .waiting⟩)
  | s5Invalid (acc : Bytes) (emitted : List Bytes) (h : MarkerAt p acc 0) (d : frameDecode p acc = .ok .invalid) :
      Pass p (.running .s2 acc emitted) (.running .s2 (acc.drop 2) emitted)
  | s5Valid (acc : Bytes) (emitted : List Bytes) (headerSize totalLen : Nat) (payload : Bytes) (h : MarkerAt p acc 0)
      (d : frameDecode p acc = .ok (.valid headerSize totalLen payload)) :
      Pass p (.running .s2 acc emitted) (.running .s1 (acc.drop totalLen) (emitted ++ [payload]))

/-! ## The causes of a decode result -/

/-- The cause labels of 60_exceptions.md R191; documentation, not output (92_eei_decisions.md D14). -/
inductive Cause where
  | short4
  | marker
  | short5
  | shortTotal
  | length
  | checksum
  | none
  deriving DecidableEq, Repr

/-- The length value an inbound buffer announces, read from offset 3 (30_encoding.md R61), as a number. -/
def announcedLength (buffer : Bytes) : Nat :=
  if 128 ≤ (byteAt buffer 3).toNat then ((byteAt buffer 3).toNat - 128) * 256 + (byteAt buffer 4).toNat
  else (byteAt buffer 3).toNat

/-- The header size an inbound buffer announces (30_encoding.md R68). -/
def announcedHeader (buffer : Bytes) : Nat := if 128 ≤ (byteAt buffer 3).toNat then 5 else 4

/-- `total_len` of an inbound buffer (30_encoding.md R68). -/
def announcedTotal (buffer : Bytes) : Nat := announcedHeader buffer + announcedLength buffer

/-- The first condition of 60_exceptions.md R191 that holds, in the table's order; the checksum by the residue test of
42_frame_decode.md R128. -/
def frameCause (p : Params) (buffer : Bytes) : Cause :=
  if buffer.length < 4 then .short4
  else if buffer.take 2 ≠ p.inMarker then .marker
  else if announcedHeader buffer = 5 ∧ buffer.length < 5 then .short5
  else if buffer.length < announcedTotal buffer then .shortTotal
  else if announcedLength buffer < 2 then .length
  else if crc16 (buffer.take (announcedTotal buffer)) 0#16 ≠ 0#16 then .checksum
  else .none

/-! ## The CRC bit by bit, and the table as listed -/

/-- The register after `k` single shifts (40_crc.md R93). -/
def bitSerial (k : Nat) (r : Word) : Word :=
  match k with
  | 0 => r
  | k + 1 => bitSerial k (if r.msb then (r <<< 1) ^^^ 0x1021#16 else r <<< 1)

/-- The table of 40_crc.md R101 as it is listed. -/
def crcListing : List Nat :=
  [0x0000, 0x1021, 0x2042, 0x3063, 0x4084, 0x50A5, 0x60C6, 0x70E7,
   0x8108, 0x9129, 0xA14A, 0xB16B, 0xC18C, 0xD1AD, 0xE1CE, 0xF1EF,
   0x1231, 0x0210, 0x3273, 0x2252, 0x52B5, 0x4294, 0x72F7, 0x62D6,
   0x9339, 0x8318, 0xB37B, 0xA35A, 0xD3BD, 0xC39C, 0xF3FF, 0xE3DE] ++
  [0x2462, 0x3443, 0x0420, 0x1401, 0x64E6, 0x74C7, 0x44A4, 0x5485,
   0xA56A, 0xB54B, 0x8528, 0x9509, 0xE5EE, 0xF5CF, 0xC5AC, 0xD58D,
   0x3653, 0x2672, 0x1611, 0x0630, 0x76D7, 0x66F6, 0x5695, 0x46B4,
   0xB75B, 0xA77A, 0x9719, 0x8738, 0xF7DF, 0xE7FE, 0xD79D, 0xC7BC] ++
  [0x48C4, 0x58E5, 0x6886, 0x78A7, 0x0840, 0x1861, 0x2802, 0x3823,
   0xC9CC, 0xD9ED, 0xE98E, 0xF9AF, 0x8948, 0x9969, 0xA90A, 0xB92B,
   0x5AF5, 0x4AD4, 0x7AB7, 0x6A96, 0x1A71, 0x0A50, 0x3A33, 0x2A12,
   0xDBFD, 0xCBDC, 0xFBBF, 0xEB9E, 0x9B79, 0x8B58, 0xBB3B, 0xAB1A] ++
  [0x6CA6, 0x7C87, 0x4CE4, 0x5CC5, 0x2C22, 0x3C03, 0x0C60, 0x1C41,
   0xEDAE, 0xFD8F, 0xCDEC, 0xDDCD, 0xAD2A, 0xBD0B, 0x8D68, 0x9D49,
   0x7E97, 0x6EB6, 0x5ED5, 0x4EF4, 0x3E13, 0x2E32, 0x1E51, 0x0E70,
   0xFF9F, 0xEFBE, 0xDFDD, 0xCFFC, 0xBF1B, 0xAF3A, 0x9F59, 0x8F78] ++
  [0x9188, 0x81A9, 0xB1CA, 0xA1EB, 0xD10C, 0xC12D, 0xF14E, 0xE16F,
   0x1080, 0x00A1, 0x30C2, 0x20E3, 0x5004, 0x4025, 0x7046, 0x6067,
   0x83B9, 0x9398, 0xA3FB, 0xB3DA, 0xC33D, 0xD31C, 0xE37F, 0xF35E,
   0x02B1, 0x1290, 0x22F3, 0x32D2, 0x4235, 0x5214, 0x6277, 0x7256] ++
  [0xB5EA, 0xA5CB, 0x95A8, 0x8589, 0xF56E, 0xE54F, 0xD52C, 0xC50D,
   0x34E2, 0x24C3, 0x14A0, 0x0481, 0x7466, 0x6447, 0x5424, 0x4405,
   0xA7DB, 0xB7FA, 0x8799, 0x97B8, 0xE75F, 0xF77E, 0xC71D, 0xD73C,
   0x26D3, 0x36F2, 0x0691, 0x16B0, 0x6657, 0x7676, 0x4615, 0x5634] ++
  [0xD94C, 0xC96D, 0xF90E, 0xE92F, 0x99C8, 0x89E9, 0xB98A, 0xA9AB,
   0x5844, 0x4865, 0x7806, 0x6827, 0x18C0, 0x08E1, 0x3882, 0x28A3,
   0xCB7D, 0xDB5C, 0xEB3F, 0xFB1E, 0x8BF9, 0x9BD8, 0xABBB, 0xBB9A,
   0x4A75, 0x5A54, 0x6A37, 0x7A16, 0x0AF1, 0x1AD0, 0x2AB3, 0x3A92] ++
  [0xFD2E, 0xED0F, 0xDD6C, 0xCD4D, 0xBDAA, 0xAD8B, 0x9DE8, 0x8DC9,
   0x7C26, 0x6C07, 0x5C64, 0x4C45, 0x3CA2, 0x2C83, 0x1CE0, 0x0CC1,
   0xEF1F, 0xFF3E, 0xCF5D, 0xDF7C, 0xAF9B, 0xBFBA, 0x8FD9, 0x9FF8,
   0x6E17, 0x7E36, 0x4E55, 0x5E74, 0x2E93, 0x3EB2, 0x0ED1, 0x1EF0]

end Sys2Proof.Machine
end

