-- ==== Sys2Proof/Certificates/Slice0/Obligations.lean ====
section
/-! DEFINITION. The statements for the provers. Each docstring names the rule of the spec it formalises; a result
written as an equation of whole states says what the operation leaves unchanged, too. -/

open Sys2Proof Sys2Proof.Machine

/-! ## The CRC generator (40_crc.md) -/

/-- 40_crc.md R96, its encoding and its effect. -/
def Obligations.CrcInitLoadsSeed : Prop :=
  ∀ (s : State) (seed : Word), decode (.command ⟨0x1#4, [.u16 seed]⟩) = .ok (.crcInit seed) ∧
    exec (.crcInit seed) s = .next { s with crcReg := seed, responses := s.responses ++ [.ok .none] }

/-- 40_crc.md R97 with the byte step of R91. -/
def Obligations.CrcUpdateFoldsOneByte : Prop :=
  ∀ (s : State) (b : Byte), decode (.command ⟨0x2#4, [.u8 b]⟩) = .ok (.crcUpdate b) ∧
    exec (.crcUpdate b) s = .next
      { s with
        crcReg := (s.crcReg <<< 8) ^^^ crcTable ((s.crcReg >>> 8).setWidth 8 ^^^ b)
        responses := s.responses ++ [.ok .none] }

/-- 40_crc.md R98: the read changes neither `crc_reg` nor `acc`. -/
def Obligations.CrcReadReturnsRegister : Prop :=
  ∀ s : State, decode (.command ⟨0x3#4, []⟩) = .ok .crcRead ∧
    exec .crcRead s = .next { s with responses := s.responses ++ [.ok (.value s.crcReg)] }

/-- 40_crc.md R99 with the fold of R92: `crc_reg` is neither used nor changed. -/
def Obligations.CrcComputeReturnsChecksum : Prop :=
  ∀ (s : State) (data : Bytes) (initial : Word),
    decode (.command ⟨0x4#4, [.bytes data, .u16 initial]⟩) = .ok (.crcCompute data initial) ∧
    exec (.crcCompute data initial) s =
      .next { s with responses := s.responses ++ [.ok (.value (data.foldl crcStep initial))] }

/-- 40_crc.md R101: the table built by R90 is the table as it is listed, and gives the source's check value. -/
def Obligations.CrcTableIsTheListing : Prop :=
  crcListing.length = 256 ∧ (∀ b : Byte, crcListing[b.toNat]? = some (crcTable b).toNat) ∧
  crc16 [0x31#8, 0x32#8, 0x33#8, 0x34#8, 0x35#8, 0x36#8, 0x37#8, 0x38#8, 0x39#8] 0#16 = 0x31C3#16

/-- 40_crc.md R93: the table form and the bit-serial form of the byte step agree everywhere. -/
def Obligations.CrcStepIsBitSerial : Prop :=
  ∀ (reg : Word) (b : Byte), crcStep reg b = bitSerial 8 (reg ^^^ (b.setWidth 16 <<< 8))

/-- 40_crc.md R94. -/
def Obligations.ChecksumComposes : Prop :=
  ∀ (a b : Bytes) (s : Word), crc16 (a ++ b) s = crc16 b (crc16 a s)

/-- 40_crc.md R95. -/
def Obligations.ChecksumResidueIsZero : Prop :=
  ∀ (d : Bytes) (s : Word), crc16 (d ++ be16 (crc16 d s)) s = 0x0000#16

/-- 40_crc.md R100, its linearity law: over equal lengths, and hence leading zero bytes are invisible with seed 0. -/
def Obligations.ChecksumIsLinear : Prop :=
  (∀ x y : Bytes, x.length = y.length → crc16 (List.zipWith (· ^^^ ·) x y) 0#16 = crc16 x 0#16 ^^^ crc16 y 0#16) ∧
  (∀ (n : Nat) (d : Bytes), crc16 (List.replicate n 0#8 ++ d) 0#16 = crc16 d 0#16)

/-- 30_encoding.md R79 with 40_crc.md R99: the streamed checksum of any data from any state, step by step. -/
def Obligations.CrcStreamReturnsChecksum : Prop :=
  ∀ (s : State) (data : Bytes) (seed : Word),
    core.run (data.length + 2) (s.withProgram (expandPseudo (.crcStream data seed))) = .next
      { s with
        crcReg := crc16 data seed
        pending := []
        responses := s.responses ++ List.replicate (data.length + 1) (.ok .none) ++ [.ok (.value (crc16 data seed))] }

/-! ## Length field (30_encoding.md) -/

/-- 30_encoding.md R66, both halves: every value round-trips with its size, and the non-canonical extended forms are
read too. -/
def Obligations.LengthFieldRoundTrips : Prop :=
  (∀ v : Nat, v ≤ 32767 →
    lenDec (byteAt (lenEnc v) 0) (byteAt (lenEnc v) 1) = (v, (lenEnc v).length)) ∧
  (∀ v : Nat, v < 128 → lenDec 0x80#8 (BitVec.ofNat 8 v) = (v, 2) ∧ lenEnc v ≠ [0x80#8, BitVec.ofNat 8 v])

/-- The two length rows complete with value and size of the field (30_encoding.md R63, R65). That these rows are
instructions is the model's choice (log entry 5). -/
def Obligations.LengthRowsReadTheirValue : Prop :=
  (∀ (s : State) (v : BitVec 7),
    exec (.lenShort v) s = .next { s with responses := s.responses ++ [.ok (.lengthValue v.toNat 1)] }) ∧
  (∀ (s : State) (v : BitVec 15),
    exec (.lenExt v) s = .next { s with responses := s.responses ++ [.ok (.lengthValue v.toNat 2)] })

/-! ## The frame encoder (41_frame_encode.md) -/

/-- 41_frame_encode.md R110 and R111: the frame of a payload that fits, the refusal of one that does not. -/
def Obligations.EncodeReturnsFrame : Prop :=
  ∀ (s : State) (cmd1 cmd2 : Byte) (payload : Bytes),
    decode (.command ⟨0x5#4, [.u8 cmd1, .u8 cmd2, .bytes payload]⟩) = .ok (.encode cmd1 cmd2 payload) ∧
    (payload.length ≤ 32767 → ∀ body,
      body = [s.params.om0, s.params.om1, s.params.om2, s.params.om3, cmd1, cmd2] ++ lenEnc payload.length ++ payload →
      exec (.encode cmd1 cmd2 payload) s =
        .next { s with responses := s.responses ++ [.ok (.frame (body ++ be16 (crc16 body 0x0000#16)))] }) ∧
    (32767 < payload.length →
      exec (.encode cmd1 cmd2 payload) s = .next { s with responses := s.responses ++ [.refusedTooLong] })

/-- 41_frame_encode.md R112: a longer payload is refused, with no frame and no state change, and no other operand is. -/
def Obligations.EncodeRefusesLongPayload : Prop :=
  ∀ (s : State) (cmd1 cmd2 : Byte) (payload : Bytes),
    exec (.encode cmd1 cmd2 payload) s = .next { s with responses := s.responses ++ [.refusedTooLong] } ↔
      32767 < payload.length

/-- 41_frame_encode.md R113: size, places of the parts, and injectivity. -/
def Obligations.EncodedFrameShape : Prop :=
  ∀ (p : Params) (c1 c2 : Byte) (payload : Bytes), payload.length ≤ 32767 →
    (payload.length < 128 → (frameEncode p c1 c2 payload).length = 9 + payload.length ∧
      slice (frameEncode p c1 c2 payload) 7 (7 + payload.length) = payload) ∧
    (128 ≤ payload.length → (frameEncode p c1 c2 payload).length = 10 + payload.length ∧
      slice (frameEncode p c1 c2 payload) 8 (8 + payload.length) = payload) ∧
    (frameEncode p c1 c2 payload).take 6 = p.outMarker ++ [c1, c2] ∧
    (∀ n, n = (frameEncode p c1 c2 payload).length - 2 →
      (frameEncode p c1 c2 payload).drop n = be16 (crc16 ((frameEncode p c1 c2 payload).take n) 0x0000#16)) ∧
    (∀ (d1 d2 : Byte) (other : Bytes), other.length ≤ 32767 →
      frameEncode p c1 c2 payload = frameEncode p d1 d2 other → c1 = d1 ∧ c2 = d2 ∧ payload = other)

/-- 41_frame_encode.md R114. -/
def Obligations.EncodedFrameResidueIsZero : Prop :=
  ∀ (p : Params) (c1 c2 : Byte) (payload : Bytes), payload.length ≤ 32767 →
    crc16 (frameEncode p c1 c2 payload) 0x0000#16 = 0x0000#16

/-- The two outbound rows complete with the checksum of all preceding bytes appended (30_encoding.md R62, R69). That
these rows are instructions is the model's choice (log entries 5 and 6). -/
def Obligations.OutboundRowsAppendChecksum : Prop :=
  (∀ (s : State) (om0 om1 om2 om3 cmd1 cmd2 : Byte) (len : BitVec 7) (payload body : Bytes),
    body = [om0, om1, om2, om3, cmd1, cmd2] ++ shortField len ++ payload →
    exec (.frameOutShort om0 om1 om2 om3 cmd1 cmd2 len payload) s =
      .next { s with responses := s.responses ++ [.ok (.frame (body ++ be16 (crc16 body 0x0000#16)))] }) ∧
  (∀ (s : State) (om0 om1 om2 om3 cmd1 cmd2 : Byte) (len : BitVec 15) (payload body : Bytes),
    body = [om0, om1, om2, om3, cmd1, cmd2] ++ extField len ++ payload →
    exec (.frameOutExt om0 om1 om2 om3 cmd1 cmd2 len payload) s =
      .next { s with responses := s.responses ++ [.ok (.frame (body ++ be16 (crc16 body 0x0000#16)))] })

/-- A well-formed outbound row is the frame `ENCODE` builds from the same command bytes and payload (30_encoding.md
R62, 41_frame_encode.md R110): both answer alike. The rows as instructions are the model's choice (log entry 5). -/
def Obligations.OutboundRowsAreEncodedFrames : Prop :=
  (∀ (s : State) (om0 om1 om2 om3 cmd1 cmd2 : Byte) (len : BitVec 7) (payload : Bytes),
    (Instr.frameOutShort om0 om1 om2 om3 cmd1 cmd2 len payload).wf s.params = true →
    exec (.frameOutShort om0 om1 om2 om3 cmd1 cmd2 len payload) s = exec (.encode cmd1 cmd2 payload) s) ∧
  (∀ (s : State) (om0 om1 om2 om3 cmd1 cmd2 : Byte) (len : BitVec 15) (payload : Bytes),
    (Instr.frameOutExt om0 om1 om2 om3 cmd1 cmd2 len payload).wf s.params = true →
    exec (.frameOutExt om0 om1 om2 om3 cmd1 cmd2 len payload) s = exec (.encode cmd1 cmd2 payload) s)

/-! ## The frame decoder (42_frame_decode.md) -/

/-- 42_frame_decode.md R122: `DECODE` always completes with `Decode`'s result and changes no state. -/
def Obligations.DecodeReturnsResult : Prop :=
  ∀ (s : State) (buffer : Bytes), s.Normative →
    decode (.command ⟨0x6#4, [.bytes buffer]⟩) = .ok (.decode buffer) ∧
    ∃ r, frameDecode s.params buffer = .ok r ∧
      exec (.decode buffer) s = .next { s with responses := s.responses ++ [.ok (.decoded r)] }

/-- 60_exceptions.md R191: the result and its tag are those of the first condition of the table that holds; a valid
result carries header size, total length and the payload between header and checksum (42_frame_decode.md R121). -/
def Obligations.DecodeFollowsCauseOrder : Prop :=
  ∀ (p : Params) (buffer : Bytes), p.lenLt2 = .invalid →
    ∃ r, frameDecode p buffer = .ok r ∧ r.tag ≠ 3#2 ∧
      match frameCause p buffer with
      | .short4 => r = .incomplete ∧ r.tag = 0#2
      | .marker => r = .invalid ∧ r.tag = 1#2
      | .short5 => r = .incomplete ∧ r.tag = 0#2
      | .shortTotal => r = .incomplete ∧ r.tag = 0#2
      | .length => r = .invalid ∧ r.tag = 1#2
      | .checksum => r = .invalid ∧ r.tag = 1#2
      | .none =>
        r = .valid (announcedHeader buffer) (announcedTotal buffer)
          (slice buffer (announcedHeader buffer) (announcedTotal buffer - 2)) ∧ r.tag = 2#2

/-- 42_frame_decode.md R128: the stored checksum is right exactly when the residue over the whole frame is zero. -/
def Obligations.ChecksumTestIsResidueTest : Prop :=
  ∀ (body : Bytes) (hi lo : Byte), frameChecksum body = u16be hi lo ↔ crc16 (body ++ [hi, lo]) 0x0000#16 = 0x0000#16

/-- 42_frame_decode.md R125, with R120's "no extension of the buffer can change that": a decided result ignores what
follows. -/
def Obligations.TrailingBytesAreIgnored : Prop :=
  ∀ (p : Params) (buffer t : Bytes) (r : FrameResult),
    frameDecode p buffer = .ok r → r ≠ .incomplete → frameDecode p (buffer ++ t) = .ok r

/-- 42_frame_decode.md R129: `Decode` inverts the inbound constructor for every header byte, payload and trailing bytes,
and every proper prefix is incomplete. -/
def Obligations.DecodeInvertsMkInbound : Prop :=
  ∀ (p : Params) (hc : Byte) (payload t : Bytes), payload.length ≤ 32765 →
    ∀ hs, hs = (if payload.length ≤ 125 then 4 else 5) →
      frameDecode p (mkInbound p hc payload ++ t) = .ok (.valid hs (hs + payload.length + 2) payload) ∧
      (∀ n, n < (mkInbound p hc payload).length → frameDecode p ((mkInbound p hc payload).take n) = .ok .incomplete)

/-- 42_frame_decode.md R130, its first half: any change to the two checksum bytes of a valid frame makes it invalid. -/
def Obligations.ChangedChecksumIsInvalid : Prop :=
  ∀ (p : Params) (body t payload : Bytes) (hi lo hi' lo' : Byte) (hs : Nat),
    frameDecode p (body ++ [hi, lo] ++ t) = .ok (.valid hs (body.length + 2) payload) →
    (hi', lo') ≠ (hi, lo) →
    frameDecode p (body ++ [hi', lo'] ++ t) = .ok .invalid

/-- 41_frame_encode.md R116, its first sentence: an encoded frame is not an inbound one. -/
def Obligations.EncodedFrameIsNotInbound : Prop :=
  ∀ (p : Params) (c1 c2 : Byte) (payload : Bytes), payload.length ≤ 32767 → p.outMarker.take 2 ≠ p.inMarker →
    frameDecode p (frameEncode p c1 c2 payload) = .ok .invalid

/-- 42_frame_decode.md R124: length values 0 and 1, short and extended, are invalid once complete, and completeness is
tested first. -/
def Obligations.LengthBelowTwoIsInvalid : Prop :=
  ∀ (p : Params) (hc x : Byte) (t : Bytes), p.lenLt2 = .invalid →
    frameDecode p ([p.im0, p.im1, hc, 0x00#8] ++ t) = .ok .invalid ∧
    frameDecode p ([p.im0, p.im1, hc, 0x01#8, x] ++ t) = .ok .invalid ∧
    frameDecode p ([p.im0, p.im1, hc, 0x80#8, 0x00#8] ++ t) = .ok .invalid ∧
    frameDecode p ([p.im0, p.im1, hc, 0x80#8, 0x01#8, x] ++ t) = .ok .invalid ∧
    frameDecode p [p.im0, p.im1, hc, 0x01#8] = .ok .incomplete ∧
    frameDecode p [p.im0, p.im1, hc, 0x80#8, 0x01#8] = .ok .incomplete

/-- 93_implementation_defined.md I1, the alternative parameter value: the only fault of the model, and where it arises.
The parameter is offered by the spec and is not its normative reading (log entry 9). -/
def Obligations.FaultsOnlyByLengthPolicy : Prop :=
  (∀ (i : Instr) (s : State) (f : Fault), exec i s = .fault f → s.params.lenLt2 = .fault) ∧
  (∀ (s : State) (hc : Byte) (t : Bytes), s.params.lenLt2 = .fault →
    exec (.decode ([s.params.im0, s.params.im1, hc, 0x00#8] ++ t)) s = .fault .lengthBelowTwo)

/-- The two inbound rows complete with `Decode`'s result on the frame's bytes and change no state (30_encoding.md R61,
42_frame_decode.md R121). That these rows are instructions is the model's choice (log entry 5). -/
def Obligations.InboundRowsAreDecoded : Prop :=
  (∀ (s : State) (im0 im1 hc : Byte) (len : BitVec 7) (rest : Bytes), s.Normative →
    ∃ r, frameDecode s.params ([im0, im1, hc] ++ shortField len ++ rest) = .ok r ∧
      exec (.frameInShort im0 im1 hc len rest) s = .next { s with responses := s.responses ++ [.ok (.decoded r)] }) ∧
  (∀ (s : State) (im0 im1 hc : Byte) (len : BitVec 15) (rest : Bytes), s.Normative →
    ∃ r, frameDecode s.params ([im0, im1, hc] ++ extField len ++ rest) = .ok r ∧
      exec (.frameInExt im0 im1 hc len rest) s = .next { s with responses := s.responses ++ [.ok (.decoded r)] })

/-- A whole inbound row with the right checksum gives back its payload, whatever the header command byte and however
the length is written, non-canonical extended forms included (30_encoding.md R61, 42_frame_decode.md R121, R127). The
rows as instructions are the model's choice (log entry 5). -/
def Obligations.WholeInboundRowsGiveTheirPayload : Prop :=
  (∀ (s : State) (hc : Byte) (len : BitVec 7) (payload header : Bytes), len.toNat = payload.length + 2 →
    header = [s.params.im0, s.params.im1, hc] ++ shortField len →
    exec (.frameInShort s.params.im0 s.params.im1 hc len (payload ++ be16 (crc16 (header ++ payload) 0x0000#16))) s = .next
      { s with responses := s.responses ++ [.ok (.decoded (.valid 4 (4 + len.toNat) payload))] }) ∧
  (∀ (s : State) (hc : Byte) (len : BitVec 15) (payload header : Bytes), len.toNat = payload.length + 2 →
    header = [s.params.im0, s.params.im1, hc] ++ extField len →
    exec (.frameInExt s.params.im0 s.params.im1 hc len (payload ++ be16 (crc16 (header ++ payload) 0x0000#16))) s = .next
      { s with responses := s.responses ++ [.ok (.decoded (.valid 5 (5 + len.toNat) payload))] })

/-! ## The reassembler (43_reassembler.md) -/

/-- 43_reassembler.md R141. -/
def Obligations.FindMarkerIsLeast : Prop :=
  ∀ (p : Params) (a : Bytes),
    (∀ i, findMarker p a = some i ↔ MarkerAt p a i ∧ ∀ j, j < i → ¬ MarkerAt p a j) ∧
    (findMarker p a = none ↔ ∀ i, ¬ MarkerAt p a i)

/-- 43_reassembler.md R140: the loop computes exactly what the procedure's lines S0 to S5 reach. -/
def Obligations.ReassembleRunsTheProcedure : Prop :=
  ∀ (p : Params) (acc0 chunk : Bytes) (r : Reassembly),
    reassemble p acc0 chunk = .ok r ↔
      Relation.ReflTransGen (Pass p) (.running .s1 (acc0 ++ chunk) []) (.stopped r)

/-- 43_reassembler.md R148: `FEED` completes with the procedure's result on every accumulator and chunk within the
capacity, and is refused whole beyond it. -/
def Obligations.FeedReturnsEmitted : Prop :=
  (∀ (s : State) (chunk : Bytes), s.Normative →
    (∀ cap, s.params.accCap = some cap → s.acc.length + chunk.length ≤ cap) →
    decode (.command ⟨0x7#4, [.bytes chunk]⟩) = .ok (.feed chunk) ∧
    ∃ r, reassemble s.params s.acc chunk = .ok r ∧
      exec (.feed chunk) s = .next { s with acc := r.acc, responses := s.responses ++ [.ok (.emitted r.emitted)] }) ∧
  (∀ (s : State) (chunk : Bytes) (cap : Nat), s.params.accCap = some cap → cap < s.acc.length + chunk.length →
    exec (.feed chunk) s = .next { s with responses := s.responses ++ [.refusedOverflow] })

/-- 43_reassembler.md R143 and R145: fewer than 4 bytes are all kept; at least 4 with no marker are all discarded. -/
def Obligations.ShortInputKeptNoiseCleared : Prop :=
  ∀ (p : Params) (acc0 chunk : Bytes),
    ((acc0 ++ chunk).length < 4 → reassemble p acc0 chunk = .ok ⟨acc0 ++ chunk, [], .tooShort⟩) ∧
    (4 ≤ (acc0 ++ chunk).length → (∀ i, ¬ MarkerAt p (acc0 ++ chunk) i) →
      reassemble p acc0 chunk = .ok ⟨[], [], .cleared⟩)

/-- 43_reassembler.md R146: exactly the bytes before the first marker are dropped, and the loop goes on from S1. -/
def Obligations.NoiseBeforeMarkerDropped : Prop :=
  ∀ (p : Params) (acc0 chunk : Bytes) (i : Nat), 4 ≤ (acc0 ++ chunk).length →
    MarkerAt p (acc0 ++ chunk) i → (∀ j, j < i → ¬ MarkerAt p (acc0 ++ chunk) j) →
    ((acc0 ++ chunk).drop i).take 2 = p.inMarker ∧
    reassemble p acc0 chunk = reassemble p [] ((acc0 ++ chunk).drop i)

/-- 43_reassembler.md R147, with 70_reset_and_hazards.md R233: at a marker-aligned accumulator, `Incomplete` discards
nothing, `Invalid` discards exactly two bytes and goes on at S2, `Valid` emits the payload, discards exactly
`total_len` bytes and goes on at S1. -/
def Obligations.CandidateArms : Prop :=
  ∀ (p : Params) (acc0 chunk a : Bytes), a = acc0 ++ chunk → 4 ≤ a.length → MarkerAt p a 0 →
    (frameDecode p a = .ok .incomplete → reassemble p acc0 chunk = .ok ⟨a, [], .waiting⟩) ∧
    (frameDecode p a = .ok .invalid →
      reassemble p acc0 chunk = feedLoop p ((a.drop 2).length + 1) .s2 (a.drop 2) []) ∧
    (∀ hs total payload, frameDecode p a = .ok (.valid hs total payload) →
      reassemble p acc0 chunk =
        (reassemble p [] (a.drop total)).map (fun r => { r with emitted := payload :: r.emitted }))

/-- 43_reassembler.md R150: what each of the three stops leaves. -/
def Obligations.FeedStopsSettled : Prop :=
  ∀ (p : Params) (acc0 chunk : Bytes) (r : Reassembly), reassemble p acc0 chunk = .ok r →
    match r.stop with
    | .tooShort => r.acc.length < 4
    | .cleared => r.acc = []
    | .waiting => r.acc.take 2 = p.inMarker ∧ frameDecode p r.acc = .ok .incomplete

/-- 43_reassembler.md R151: under the invariant, the empty chunk emits nothing and leaves everything. -/
def Obligations.EmptyFeedChangesNothing : Prop :=
  ∀ s : State, s.Inv → exec (.feed []) s = .next { s with responses := s.responses ++ [.ok (.emitted [])] }

/-- 43_reassembler.md R152. -/
def Obligations.RxClearEmptiesAccumulator : Prop :=
  ∀ s : State, decode (.command ⟨0x8#4, []⟩) = .ok .rxClear ∧
    exec .rxClear s = .next { s with acc := [], responses := s.responses ++ [.ok .none] }

/-- 43_reassembler.md R155. -/
def Obligations.NopChangesNothing : Prop :=
  ∀ s : State, decode (.command ⟨0x0#4, []⟩) = .ok .nop ∧
    exec .nop s = .next { s with responses := s.responses ++ [.ok .none] }

/-- 43_reassembler.md R154: from an empty accumulator, a well-formed inbound frame fed one byte per `FEED` emits nothing
until its last byte, and then exactly its payload. -/
def Obligations.FrameFedByteByByte : Prop :=
  ∀ (s : State) (hc : Byte) (payload frame : Bytes), s.acc = [] → payload.length ≤ 32765 →
    frame = mkInbound s.params hc payload → (∀ cap, s.params.accCap = some cap → frame.length ≤ cap) →
    core.run frame.length (s.withProgram (expandPseudo (.feedBytes frame))) = .next
      { s with
        acc := []
        pending := []
        responses := s.responses ++ List.replicate (frame.length - 1) (.ok (.emitted [])) ++ [.ok (.emitted [payload])] }

/-- 95_test_vectors.md S3 (90_conflicts.md C3): a garbage byte, if it does not make a marker with the frame's first
byte, is dropped and the frame's payload is the one emission. -/
def Obligations.GarbageByteThenFrame : Prop :=
  ∀ (p : Params) (g hc : Byte) (payload : Bytes), payload.length ≤ 32765 → ¬ (g = p.im0 ∧ p.im0 = p.im1) →
    reassemble p [] (g :: mkInbound p hc payload) = .ok ⟨[], [payload], .tooShort⟩

/-- 95_test_vectors.md S5 (90_conflicts.md C10): a frame with changed checksum bytes, with no marker after its own
before the next frame, is dropped and the next frame is emitted in the same `FEED`. -/
def Obligations.CorruptFrameThenGoodFrame : Prop :=
  ∀ (p : Params) (hc hc' hi lo : Byte) (payload payload' body : Bytes),
    payload.length ≤ 32765 → payload'.length ≤ 32765 →
    body = p.inMarker ++ [hc] ++ lenEnc (payload.length + 2) ++ payload → [hi, lo] ≠ be16 (crc16 body 0x0000#16) →
    (∀ i, 2 ≤ i → i < body.length + 2 → ¬ MarkerAt p (body ++ [hi, lo] ++ mkInbound p hc' payload') i) →
    reassemble p [] (body ++ [hi, lo] ++ mkInbound p hc' payload') = .ok ⟨[], [payload'], .tooShort⟩

/-- 70_reset_and_hazards.md R226: unless the first of two chunks ends in the clear of S3, feeding both in turn and
feeding their concatenation leave the same accumulator and emit the same payloads in the same order. -/
def Obligations.ChunkBoundaryHarmlessUnlessCleared : Prop :=
  ∀ (p : Params) (acc0 a b : Bytes) (r : Reassembly), reassemble p acc0 a = .ok r → r.stop ≠ .cleared →
    (reassemble p acc0 (a ++ b)).map (fun joined => (joined.acc, joined.emitted)) =
      (reassemble p r.acc b).map (fun second => (second.acc, r.emitted ++ second.emitted))

/-! ## The whole machine -/

/-- 70_reset_and_hazards.md R220. That the owner's later inputs stay queued is the model's choice (log entry 10). -/
def Obligations.ResetInputSetsResetValues : Prop :=
  ∀ (s : State) (rest : List Event),
    step { s with pending := .reset :: rest } = .next { s with crcReg := 0x0000#16, acc := [], pending := rest }

/-- 30_encoding.md R79: `RESTART` brings `crc_reg` and `acc` to their reset values (10_state.md R30). -/
def Obligations.RestartReachesResetValues : Prop :=
  ∀ s : State, core.run 2 (s.withProgram (expandPseudo .restart)) = .next
    { s with
      crcReg := (State.resetWith s.params).crcReg
      acc := (State.resetWith s.params).acc
      pending := []
      responses := s.responses ++ [.ok .none, .ok .none] }

/-- 10_state.md R31: the invariant holds after reset, under any parameters, and after a reset input. -/
def Obligations.ResetMeetsInvariant : Prop :=
  (∀ p : Params, (State.resetWith p).Inv) ∧ State.reset.Inv ∧ ∀ s : State, s.applyReset.Inv

/-- 10_state.md R31 with R24: every step keeps the invariant, from every state that has it. -/
def Obligations.StepKeepsInvariant : Prop :=
  ∀ s t : State, s.Inv → step s = .next t → t.Inv

/-- 10_state.md R23, 70_reset_and_hazards.md R231: only `CRC_INIT` and `CRC_UPDATE` write `crc_reg`. -/
def Obligations.OnlyCrcPortWritesCrcReg : Prop :=
  ∀ (i : Instr) (s t : State), exec i s = .next t → (∀ seed, i ≠ .crcInit seed) → (∀ b, i ≠ .crcUpdate b) →
    t.crcReg = s.crcReg

/-- 10_state.md R24: only `FEED` and `RX_CLEAR` write `acc`; after any other operation every read of it (20_memory.md
R44) gives what it gave before. -/
def Obligations.OnlyStreamUnitWritesAcc : Prop :=
  ∀ (i : Instr) (s t : State), exec i s = .next t → (∀ chunk, i ≠ .feed chunk) → i ≠ .rxClear →
    ∀ addr n, t.memRead addr n = s.memRead addr n

/-- 10_state.md R25: no step writes the parameters. Holding them in State is the model's choice (log entry 1). -/
def Obligations.ParametersAreNeverWritten : Prop :=
  ∀ s t : State, step s = .next t → t.params = s.params

/-- 60_exceptions.md R207, 43_reassembler.md R149: under the normative length policy every operation on every state with
every operand returns, with exactly one response, and takes nothing from the owner's inputs to come. -/
def Obligations.EveryOperationReturns : Prop :=
  ∀ (i : Instr) (s : State), s.Normative →
    ∃ t r, exec i s = .next t ∧ t.responses = s.responses ++ [r] ∧ t.pending = s.pending

/-- 10_state.md R28: two states with the same block (parameters, `crc_reg`, `acc`) give every operation the same
outcome, the same response and the same block, whatever was invoked or returned before. -/
def Obligations.NoMemoryOfEarlierCalls : Prop :=
  ∀ (i : Instr) (s s' : State), s.SameBlock s' →
    (∀ t, exec i s = .next t → ∃ t' r, exec i s' = .next t' ∧ t.SameBlock t' ∧
      t.responses = s.responses ++ [r] ∧ t'.responses = s'.responses ++ [r]) ∧
    (∀ f, exec i s = .fault f → exec i s' = .fault f) ∧ (∀ f, exec i s ≠ .refused f)

/-- 30_encoding.md R77: a reserved select code, with any operands, returns REFUSED_BAD_OP and changes no state; and the
status codes are those of the rule. -/
def Obligations.ReservedCodesAreRefused : Prop :=
  (∀ (s : State) (op : BitVec 4) (operands : List Operand) (rest : List Event), 9 ≤ op.toNat →
    step { s with pending := .invoke (.command ⟨op, operands⟩) :: rest } =
      .next { s with pending := rest, responses := s.responses ++ [.refusedBadOp] }) ∧
  (∀ r, (Response.ok r).status = 0#2) ∧ Response.refusedBadOp.status = 1#2 ∧
  Response.refusedTooLong.status = 2#2 ∧ Response.refusedOverflow.status = 3#2

/-- A step runs the instruction the owner's next input decodes to, on the state with that input taken (00_scope.md R8,
20_memory.md R49). The input list is the model's choice (log entry 2). -/
def Obligations.StepRunsDecodedInstruction : Prop :=
  ∀ (s : State) (item : Item) (rest : List Event) (i : Instr), decode item = .ok i →
    step { s with pending := .invoke item :: rest } = exec i { s with pending := rest }

/-- 60_exceptions.md R205: nothing happens without an input; 70_reset_and_hazards.md R232 and R221: no step for
overlapping invocations or a reset during an operation. The input list is the model's choice (log entries 2 and 11). -/
def Obligations.IdleAndForbiddenInputs : Prop :=
  (∀ s : State, s.pending = [] → step s = .next s) ∧
  (∀ (s : State) (first second : Item) (rest : List Event),
    step { s with pending := .overlap first second :: rest } = .refused .overlappingInvocation) ∧
  (∀ (s : State) (item : Item) (rest : List Event),
    step { s with pending := .resetDuring item :: rest } = .refused .resetDuringOperation)

/-! ## Encodings (30_encoding.md) -/

/-- Decoding the item of an instruction gives it back, for every instruction and every operand (30_encoding.md R75, R76,
R80). -/
def Obligations.DecodeInvertsEncode : Prop :=
  ∀ i : Instr, decode (encode i) = .ok i

/-- Each instruction has at most one item: whatever decodes to it is its encoding (30_encoding.md R75, R76, R80); that
the encoding does decode is `Obligations.DecodeInvertsEncode`. The item forms, wire items among them, and the refusal of
other operand shapes are the model's choice (log entries 4 and 5). -/
def Obligations.EncodeInvertsDecode : Prop :=
  ∀ (item : Item) (i : Instr), decode item = .ok i → encode i = item

/-- A few words written out from the encodings of 30_encoding.md R61 to R63 and R75. -/
def Obligations.SampleWordsDecode : Prop :=
  decodeTableWord 8 0x2 = some (.crcUpdate 0#8) ∧
  decodeTableWord 8 0x7 = some (.feed []) ∧
  decodeTableWord 8 0x9 = none ∧
  decodeTableWord 8 0x5A = some (.lenShort 0x5A#7) ∧
  decodeTableWord 16 0x9234 = some (.lenExt 0x1234#15) ∧
  decodeTableWord 32 0xAA555601 = some (.frameInShort 0xAA#8 0x55#8 0x56#8 1#7 [0#8]) ∧
  decodeTableWord 40 0xAA55568002 = some (.frameInExt 0xAA#8 0x55#8 0x56#8 2#15 [0#8, 0#8]) ∧
  decodeTableWord 56 0xC936B847566000 = some (.frameOutShort 0xC9#8 0x36#8 0xB8#8 0x47#8 0x56#8 0x60#8 0#7 [])

/-! ## Context: the software around the block (44_context_software.md) -/

/-- 44_context_software.md R176: too short or wrongly tagged payloads give no state, all others one; it holds for both
byte orders of the buttons word and both variants (log entry 17). -/
def Obligations.StateReportParsedWhole : Prop :=
  ∀ (order : ButtonsOrder) (extended : Bool) (payload : Bytes),
    (parseState order extended payload).isSome = true ↔ 14 ≤ payload.length ∧ byteAt payload 0 = 0x60#8

/-- 44_context_software.md R175, its invariant, over the step: every controller state that a step adds to the streamed
ones comes from a `FEED`, out of a payload that a piece of the stream held behind the inbound marker in a frame whose
checksum over the whole frame is right, with the tag 0x60; and a reply's state is one of the streamed ones. It holds for
both byte orders of the buttons word and both variants (log entry 17); which replies and responses are looked at is the
client's (log entries 3, 21 and 22). -/
def Obligations.ControllerStatesComeFromValidFrames : Prop :=
  ∀ (order : ButtonsOrder) (extended : Bool),
    (∀ s t : State, step s = .next t →
      ∃ new, t.responses = s.responses ++ new ∧
        ∀ c ∈ streamedStates order extended new,
          ∃ chunk rest before frame after payload,
            s.pending = .invoke (encode (.feed chunk)) :: rest ∧
            s.acc ++ chunk = before ++ frame ++ after ∧
            frame.take 2 = s.params.inMarker ∧
            crc16 frame 0x0000#16 = 0x0000#16 ∧
            (∃ headerSize, frameDecode s.params frame = .ok (.valid headerSize frame.length payload)) ∧
            byteAt payload 0 = 0x60#8 ∧
            parseState order extended payload = some c) ∧
    (∀ (responses : List Response) (c : ControllerState),
      replyState order extended responses = some c → c ∈ streamedStates order extended responses)
end

