-- ==== Sys2Proof/Laws/Crc.lean ====
section
/-! SUPPORT. The laws of the CRC step: exclusive-or passes through the shifts, and a byte equal to the register's high
byte leaves a plain shift. -/

namespace Sys2Proof.Machine

/-- The top-bit test of a shift is bit 15. -/
theorem crcShift_eq_msb (r : Word) : crcShift r = if r.getLsbD 15 then (r <<< 1) ^^^ 0x1021#16 else r <<< 1 := by
  have mask : (0x8000#16 : Word) = BitVec.twoPow 16 15 := by decide
  rw [crcShift, mask, BitVec.and_twoPow, Config.crcPoly]
  cases r.getLsbD 15
  · simp
  · rw [if_pos rfl, if_pos (by decide), if_pos rfl]

/-- A shift is linear. -/
theorem crcShift_xor (x y : Word) : crcShift (x ^^^ y) = crcShift x ^^^ crcShift y := by
  rw [crcShift_eq_msb, crcShift_eq_msb, crcShift_eq_msb, BitVec.getLsbD_xor, BitVec.shiftLeft_xor_distrib]
  cases x.getLsbD 15 <;> cases y.getLsbD 15 <;> simp only [Bool.xor_false, Bool.xor_true, Bool.not_true,
    Bool.not_false, if_true, if_false, Bool.false_eq_true]
  · ac_rfl
  · ac_rfl
  · have swap : (x <<< 1 ^^^ 0x1021#16) ^^^ (y <<< 1 ^^^ 0x1021#16) =
        (x <<< 1 ^^^ y <<< 1) ^^^ (0x1021#16 ^^^ 0x1021#16) := by ac_rfl
    rw [swap]
    simp

/-- Only zero shifts to zero. -/
theorem crcShift_eq_zero (r : Word) (h : crcShift r = 0#16) : r = 0#16 := by
  rw [crcShift_eq_msb] at h
  cases c : r.getLsbD 15 <;> simp only [c, if_true, Bool.false_eq_true, if_false] at h
  · ext i hi
    by_cases top : i = 15
    · subst top; simpa using c
    · have bit := congrArg (fun v => v.getLsbD (i + 1)) h
      have : i + 1 < 16 := by omega
      simpa [this] using bit
  · have bit := congrArg (fun v => v.getLsbD 0) h
    simp at bit

theorem crcShift8_xor (x y : Word) : crcShift8 (x ^^^ y) = crcShift8 x ^^^ crcShift8 y := by
  simp only [crcShift8, crcShift_xor]

/-- Eight shifts of a low byte move it up unchanged: its bits never reach the top. -/
theorem crcShift8_low (b : Byte) : crcShift8 (b.setWidth 16) = b.setWidth 16 <<< 8 := by
  revert b; decide +kernel

/-- Only zero reaches zero in eight shifts. -/
theorem crcShift8_eq_zero (r : Word) (h : crcShift8 r = 0#16) : r = 0#16 := by
  unfold crcShift8 at h
  iterate 8 replace h := crcShift_eq_zero _ h
  exact h

/-- A register is its high byte above its low byte. -/
theorem word_split (r : Word) : r = ((highByte r).setWidth 16 <<< 8) ^^^ (r.setWidth 8).setWidth 16 := by
  apply BitVec.eq_of_getLsbD_eq
  intro i hi
  by_cases h : i < 8
  · simp [highByte, h, hi]
  · have low : i - 8 < 8 := by omega
    have e : 8 + (i - 8) = i := by omega
    have low' : i - 8 < 16 := by omega
    simp [highByte, h, low, low', e, hi]

/-- The left shift by 8 keeps the low byte only. -/
theorem shiftLeft_eq_low (r : Word) : r <<< 8 = (r.setWidth 8).setWidth 16 <<< 8 := by
  apply BitVec.eq_of_getLsbD_eq
  intro i hi
  by_cases h : i < 8
  · simp [h]
  · have low : i - 8 < 8 := by omega
    have low' : i - 8 < 16 := by omega
    simp [h, hi, low, low']

/-- The byte step as eight shifts of the register with the byte entered at the high end. -/
theorem crcStep_eq_shift8 (reg : Word) (b : Byte) : crcStep reg b = crcShift8 (reg ^^^ (b.setWidth 16 <<< 8)) := by
  have e : reg ^^^ (b.setWidth 16 <<< 8) =
      ((highByte reg ^^^ b).setWidth 16 <<< 8) ^^^ (reg.setWidth 8).setWidth 16 := by
    conv_lhs => rw [word_split reg]
    rw [BitVec.setWidth_xor, BitVec.shiftLeft_xor_distrib]
    ac_rfl
  rw [e, crcShift8_xor, crcShift8_low, crcStep, crcTable, shiftLeft_eq_low reg]
  ac_rfl

/-- The byte step is linear in register and byte together. -/
theorem crcStep_xor (r r' : Word) (b b' : Byte) : crcStep (r ^^^ r') (b ^^^ b') = crcStep r b ^^^ crcStep r' b' := by
  simp only [crcStep_eq_shift8, BitVec.setWidth_xor, BitVec.shiftLeft_xor_distrib]
  rw [← crcShift8_xor]
  congr 1
  ac_rfl

@[simp] theorem crcTable_zero : crcTable 0#8 = 0#16 := by decide

@[simp] theorem crcStep_zero : crcStep 0#16 0#8 = 0#16 := by decide

/-- A byte equal to the register's high byte gives index 0 and so a plain shift (40_crc.md R97). -/
theorem crcStep_highByte (r : Word) : crcStep r (highByte r) = r <<< 8 := by
  simp [crcStep]

/-- A step reaches zero exactly from the byte itself over a zero low byte. -/
theorem crcStep_eq_zero_iff (r : Word) (b : Byte) : crcStep r b = 0#16 ↔ r = b.setWidth 16 <<< 8 := by
  rw [crcStep_eq_shift8]
  constructor
  · intro h
    exact BitVec.xor_eq_zero_iff.mp (crcShift8_eq_zero _ h)
  · rintro rfl
    rw [BitVec.xor_self]
    decide

@[simp] theorem crc16_nil (reg : Word) : crc16 [] reg = reg := rfl

@[simp] theorem crc16_cons (b : Byte) (data : Bytes) (reg : Word) : crc16 (b :: data) reg = crc16 data (crcStep reg b) := rfl

/-- The fold of 40_crc.md R92 as a fold of the library. -/
theorem crc16_eq_foldl (data : Bytes) (reg : Word) : crc16 data reg = data.foldl crcStep reg := by
  induction data generalizing reg with
  | nil => rfl
  | cons b data ih => exact ih _

/-- Eight shifts tell any two registers apart. -/
theorem crcShift8_injective (x y : Word) (h : crcShift8 x = crcShift8 y) : x = y := by
  apply BitVec.xor_eq_zero_iff.mp
  apply crcShift8_eq_zero
  rw [crcShift8_xor, h, BitVec.xor_self]

/-- `U16BE` as an exclusive-or: the two halves do not overlap. -/
theorem u16be_eq_xor (h l : Byte) : u16be h l = (h.setWidth 16 <<< 8) ^^^ l.setWidth 16 := by
  apply BitVec.eq_of_getLsbD_eq
  intro i hi
  by_cases c : i < 8
  · simp [u16be, c]
  · simp [u16be, c, BitVec.getLsbD_of_ge l i (by omega)]

/-- Two steps reach zero exactly on the register's own bytes, high byte first: for fixed bytes a step is a bijection. -/
theorem crcStep_twice_eq_zero_iff (c : Word) (h l : Byte) : crcStep (crcStep c h) l = 0#16 ↔ c = u16be h l := by
  rw [crcStep_eq_zero_iff, crcStep_eq_shift8, ← crcShift8_low l, u16be_eq_xor]
  constructor
  · intro e
    rw [← crcShift8_injective _ _ e, BitVec.xor_comm c, ← BitVec.xor_assoc, BitVec.xor_self, BitVec.zero_xor]
  · rintro rfl
    rw [BitVec.xor_comm (h.setWidth 16 <<< 8), BitVec.xor_assoc, BitVec.xor_self, BitVec.xor_zero]

/-- `U16BE` of the bytes of `BE16`. -/
@[simp] theorem u16be_be16 (v : Word) : u16be (highByte v) (v.setWidth 8) = v := by
  rw [u16be_eq_xor, ← word_split]

/-- The bytes of `BE16` of a `U16BE`. -/
theorem be16_u16be (h l : Byte) : be16 (u16be h l) = [h, l] := by
  have hi : highByte (u16be h l) = h := by
    apply BitVec.eq_of_getLsbD_eq
    intro i c
    have inside : 8 + i < 16 := by omega
    have inside' : i < 16 := by omega
    simp [highByte, u16be, c, inside, inside']
  have lo : (u16be h l).setWidth 8 = l := by
    apply BitVec.eq_of_getLsbD_eq
    intro i c
    simp [u16be, c]
  simp [be16, hi, lo]

end Sys2Proof.Machine
end

