-- ==== Sys2Proof/Laws/Operands.lean ====
section
/-! SUPPORT. The laws of byte sequences and of the length field, in numbers. -/

namespace Sys2Proof.Machine

@[simp] theorem byteAt_cons_zero (b : Byte) (s : Bytes) : byteAt (b :: s) 0 = b := rfl

@[simp] theorem byteAt_cons_succ (b : Byte) (s : Bytes) (i : Nat) : byteAt (b :: s) (i + 1) = byteAt s i := rfl

/-- Bytes appended do not change the bytes before them. -/
theorem byteAt_append_left {s t : Bytes} {i : Nat} (h : i < s.length) : byteAt (s ++ t) i = byteAt s i := by
  simp [byteAt, List.getElem?_append_left h]

theorem byteAt_append_right {s t : Bytes} {i : Nat} (h : s.length ≤ i) : byteAt (s ++ t) i = byteAt t (i - s.length) := by
  simp [byteAt, List.getElem?_append_right h]

/-- A byte inside a sequence is that byte. -/
theorem getElem?_eq_byteAt {s : Bytes} {i : Nat} (h : i < s.length) : s[i]? = some (byteAt s i) := by
  simp [byteAt, h]

theorem byteAt_take {s : Bytes} {i n : Nat} (h : i < n) : byteAt (s.take n) i = byteAt s i := by
  simp [byteAt, h]

@[simp] theorem be16_length (v : Word) : (be16 v).length = 2 := rfl

/-- The form of a length field, by number (30_encoding.md R63). -/
theorem lenFlag_iff (b : Byte) : b &&& 0x80#8 ≠ 0#8 ↔ 128 ≤ b.toNat := by
  revert b; decide +kernel

/-- The value bits of a flagged byte. -/
theorem lenHigh_toNat (b : Byte) (h : 128 ≤ b.toNat) : (b &&& 0x7F#8).toNat = b.toNat - 128 := by
  revert b; decide +kernel

/-- `LenDec` in numbers (30_encoding.md R65). -/
theorem lenDec_eq (b0 b1 : Byte) : lenDec b0 b1 =
    if 128 ≤ b0.toNat then ((b0.toNat - 128) * 256 + b1.toNat, 2) else (b0.toNat, 1) := by
  unfold lenDec
  by_cases h : 128 ≤ b0.toNat
  · rw [if_pos ((lenFlag_iff b0).mpr h), if_pos h, lenHigh_toNat b0 h,
      ← Nat.shiftLeft_add_eq_or_of_lt b1.isLt, Nat.shiftLeft_eq]
  · rw [if_neg (fun c => h ((lenFlag_iff b0).mp c)), if_neg h]

/-- The first byte of the extended form, by number (30_encoding.md R64). -/
theorem flagged_toNat (k : Nat) (h : k < 128) : (0x80#8 ||| BitVec.ofNat 8 k).toNat = 128 + k := by
  revert h; revert k; decide +kernel

theorem lenEnc_short {v : Nat} (h : v < 128) : lenEnc v = [BitVec.ofNat 8 v] := by
  simp [lenEnc, Config.lenShortLimit, h]

theorem lenEnc_extended {v : Nat} (h : 128 ≤ v) :
    lenEnc v = [0x80#8 ||| BitVec.ofNat 8 (v / 256), BitVec.ofNat 8 (v % 256)] := by
  simp [lenEnc, Config.lenShortLimit, Nat.not_lt.mpr h]

theorem lenEnc_length (v : Nat) : (lenEnc v).length = if v < 128 then 1 else 2 := by
  unfold lenEnc Config.lenShortLimit
  split <;> rfl

/-- A byte below 256 keeps its number. -/
theorem ofNat8_toNat {v : Nat} (h : v < 256) : (BitVec.ofNat 8 v).toNat = v := by
  simp [Nat.mod_eq_of_lt h]

end Sys2Proof.Machine
end

