-- ==== Sys2Proof/Laws/Codec.lean ====
section
/-! SUPPORT. `Decode` in numbers, once: what each result means for the buffer, so that no later proof unfolds its steps. -/

namespace Sys2Proof.Machine

/-- `Decode` with its header read as numbers (42_frame_decode.md R121). -/
theorem frameDecode_eq (p : Params) (buffer : Bytes) : frameDecode p buffer =
    if buffer.length < 4 then .ok .incomplete
    else if byteAt buffer 0 ≠ p.im0 ∨ byteAt buffer 1 ≠ p.im1 then .ok .invalid
    else if 128 ≤ (byteAt buffer 3).toNat ∧ buffer.length < 5 then .ok .incomplete
    else if buffer.length < announcedTotal buffer then .ok .incomplete
    else decodeComplete p buffer (announcedLength buffer) (announcedHeader buffer) := by
  have f : byteAt buffer 3 &&& 0x80#8 ≠ 0#8 ↔ 128 ≤ (byteAt buffer 3).toNat := lenFlag_iff _
  simp only [frameDecode, Config.minDecodeBytes, f, lenDec_eq, announcedTotal, announcedLength, announcedHeader]
  by_cases h : 128 ≤ (byteAt buffer 3).toNat <;> simp [h]

/-- The header size is 4 or 5. -/
theorem announcedHeader_bounds (buffer : Bytes) : 4 ≤ announcedHeader buffer ∧ announcedHeader buffer ≤ 5 := by
  unfold announcedHeader; split <;> omega

/-- What a buffer announces depends on its first five bytes only, the fifth in the extended form only. -/
theorem announced_congr {s t : Bytes} (h3 : byteAt s 3 = byteAt t 3)
    (h4 : 128 ≤ (byteAt s 3).toNat → byteAt s 4 = byteAt t 4) :
    announcedLength s = announcedLength t ∧ announcedHeader s = announcedHeader t := by
  unfold announcedLength announcedHeader
  rw [← h3]
  by_cases c : 128 ≤ (byteAt s 3).toNat
  · simp [c, h4 c]
  · simp [c]

/-- A header fully present announces the same with bytes appended. -/
theorem announced_append {s : Bytes} (t : Bytes) (h : 4 ≤ s.length) (h5 : 128 ≤ (byteAt s 3).toNat → 5 ≤ s.length) :
    announcedLength (s ++ t) = announcedLength s ∧ announcedHeader (s ++ t) = announcedHeader s := by
  apply announced_congr (byteAt_append_left (by omega))
  intro c
  rw [byteAt_append_left (by omega)] at c
  exact byteAt_append_left (by have := h5 c; omega)

/-- The header of a sequence with a length value written by `LenEnc` at offset 3. -/
theorem announced_lenEnc (a b c : Byte) (v : Nat) (t : Bytes) (h : v ≤ 32767) :
    announcedLength ([a, b, c] ++ lenEnc v ++ t) = v ∧
    announcedHeader ([a, b, c] ++ lenEnc v ++ t) = 3 + (lenEnc v).length := by
  unfold announcedLength announcedHeader
  by_cases s : v < 128
  · have e : (BitVec.ofNat 8 v).toNat = v := ofNat8_toNat (by omega)
    have n : ¬ 128 ≤ v := by omega
    simp [lenEnc_short s, byteAt, Nat.mod_eq_of_lt (show v < 256 by omega), n]
  · have q : v / 256 < 128 := by omega
    have first := flagged_toNat (v / 256) q
    have second : (BitVec.ofNat 8 (v % 256)).toNat = v % 256 := ofNat8_toNat (by omega)
    rw [lenEnc_extended (by omega)]
    simp only [List.cons_append, List.nil_append, byteAt_cons_succ, byteAt_cons_zero, List.length_cons,
      List.length_nil, first, second]
    rw [if_pos (by omega), if_pos (by omega)]
    omega

/-! ## What a result means -/

/-- An incomplete buffer is short of something; a candidate of at least 4 bytes has the marker. -/
theorem frameDecode_incomplete {p : Params} {buffer : Bytes} (h : frameDecode p buffer = .ok .incomplete) :
    buffer.length < 4 ∨ (4 ≤ buffer.length ∧ byteAt buffer 0 = p.im0 ∧ byteAt buffer 1 = p.im1) := by
  rw [frameDecode_eq] at h
  by_cases a : buffer.length < 4
  · exact .inl a
  · by_cases b : byteAt buffer 0 ≠ p.im0 ∨ byteAt buffer 1 ≠ p.im1
    · simp [a, b] at h
    · rw [not_or, not_not, not_not] at b
      exact .inr ⟨by omega, b⟩

/-- A complete candidate: the conditions under which step D5 decides. -/
structure Complete (p : Params) (buffer : Bytes) : Prop where
  long : 4 ≤ buffer.length
  marker0 : byteAt buffer 0 = p.im0
  marker1 : byteAt buffer 1 = p.im1
  header : 128 ≤ (byteAt buffer 3).toNat → 5 ≤ buffer.length
  whole : announcedTotal buffer ≤ buffer.length

/-- A complete candidate begins with the inbound marker. -/
theorem Complete.take_marker {p : Params} {buffer : Bytes} (c : Complete p buffer) : buffer.take 2 = p.inMarker := by
  obtain ⟨long, m0, m1, -, -⟩ := c
  rcases buffer with - | ⟨x, - | ⟨y, rest⟩⟩
  · simp at long
  · simp at long
  · rw [byteAt_cons_zero] at m0
    rw [byteAt_cons_succ, byteAt_cons_zero] at m1
    simp [Params.inMarker, m0, m1]

/-- On a complete candidate `Decode` is its last step. -/
theorem frameDecode_complete {p : Params} {buffer : Bytes} (c : Complete p buffer) :
    frameDecode p buffer = decodeComplete p buffer (announcedLength buffer) (announcedHeader buffer) := by
  rw [frameDecode_eq, if_neg (by have := c.long; omega), if_neg (by simp [c.marker0, c.marker1]),
    if_neg (by intro h; have := c.header h.1; omega), if_neg (by have := c.whole; omega)]

/-- The five ways `Decode` can go (42_frame_decode.md R121). -/
theorem frameDecode_cases (p : Params) (buffer : Bytes) :
    frameDecode p buffer = .ok .incomplete ∨
    (4 ≤ buffer.length ∧ (byteAt buffer 0 ≠ p.im0 ∨ byteAt buffer 1 ≠ p.im1) ∧ frameDecode p buffer = .ok .invalid) ∨
    Complete p buffer := by
  rw [frameDecode_eq]
  by_cases a : buffer.length < 4
  · simp [a]
  · by_cases b : byteAt buffer 0 ≠ p.im0 ∨ byteAt buffer 1 ≠ p.im1
    · right; left
      exact ⟨by omega, b, by rw [if_neg a, if_pos b]⟩
    · by_cases c : 128 ≤ (byteAt buffer 3).toNat ∧ buffer.length < 5
      · simp [a, b, c]
      · by_cases d : buffer.length < announcedTotal buffer
        · simp [a, b, d]
        · right; right
          rw [not_or, not_not, not_not] at b
          exact ⟨by omega, b.1, b.2, by intro f; by_contra g; exact c ⟨f, by omega⟩, by omega⟩

/-- A complete candidate stays the same candidate with bytes appended. -/
theorem Complete.append {p : Params} {buffer : Bytes} (c : Complete p buffer) (t : Bytes) :
    Complete p (buffer ++ t) ∧ announcedLength (buffer ++ t) = announcedLength buffer ∧
      announcedHeader (buffer ++ t) = announcedHeader buffer := by
  have a := announced_append t c.long c.header
  have l := c.long
  have b3 : byteAt (buffer ++ t) 3 = byteAt buffer 3 := byteAt_append_left (by omega)
  refine ⟨⟨?_, ?_, ?_, ?_, ?_⟩, a⟩
  · simp; omega
  · rw [byteAt_append_left (by omega), c.marker0]
  · rw [byteAt_append_left (by omega), c.marker1]
  · rw [b3]; intro h; have := c.header h; simp; omega
  · have w := c.whole
    unfold announcedTotal at w ⊢
    rw [a.1, a.2]; simp; omega

/-- Step D5 reads the candidate only (42_frame_decode.md R125). -/
theorem decodeComplete_append (p : Params) (buffer t : Bytes) (len hs : Nat) (h : hs + len ≤ buffer.length)
    (pos : 4 ≤ hs) : decodeComplete p (buffer ++ t) len hs = decodeComplete p buffer len hs := by
  have cut : (buffer ++ t).take (hs + len - 2) = buffer.take (hs + len - 2) := by
    rw [List.take_append_of_le_length (by omega)]
  have i : byteAt (buffer ++ t) (hs + len - 2) = byteAt buffer (hs + len - 2) := byteAt_append_left (by omega)
  have j : byteAt (buffer ++ t) (hs + len - 1) = byteAt buffer (hs + len - 1) := byteAt_append_left (by omega)
  have k : slice (buffer ++ t) hs (hs + len - 2) = slice buffer hs (hs + len - 2) := by
    unfold slice; rw [cut]
  simp only [decodeComplete, cut, i, j, k]

/-- What step D5 can answer. -/
theorem decodeComplete_cases (p : Params) (buffer : Bytes) (len hs : Nat) :
    (len < 2 ∧ p.lenLt2 = .invalid ∧ decodeComplete p buffer len hs = .ok .invalid) ∨
    (len < 2 ∧ p.lenLt2 = .fault ∧ decodeComplete p buffer len hs = .error .lengthBelowTwo) ∨
    (2 ≤ len ∧ frameChecksum (buffer.take (hs + len - 2)) ≠
        u16be (byteAt buffer (hs + len - 2)) (byteAt buffer (hs + len - 1)) ∧
      decodeComplete p buffer len hs = .ok .invalid) ∨
    (2 ≤ len ∧ frameChecksum (buffer.take (hs + len - 2)) =
        u16be (byteAt buffer (hs + len - 2)) (byteAt buffer (hs + len - 1)) ∧
      decodeComplete p buffer len hs = .ok (.valid hs (hs + len) (slice buffer hs (hs + len - 2)))) := by
  unfold decodeComplete Config.trailerLen
  by_cases a : len < 2
  · cases b : p.lenLt2 <;> simp [a]
  · by_cases c : frameChecksum (buffer.take (hs + len - 2)) =
      u16be (byteAt buffer (hs + len - 2)) (byteAt buffer (hs + len - 1))
    · right; right; right; exact ⟨by omega, c, by simp [a, c]⟩
    · right; right; left; exact ⟨by omega, c, by simp [a, c]⟩

/-- Everything a `Valid` result says about the buffer (42_frame_decode.md R121, R120). -/
theorem frameDecode_valid {p : Params} {buffer : Bytes} {hs total : Nat} {payload : Bytes}
    (h : frameDecode p buffer = .ok (.valid hs total payload)) :
    Complete p buffer ∧ hs = announcedHeader buffer ∧ total = announcedTotal buffer ∧ 2 ≤ announcedLength buffer ∧
      payload = slice buffer hs (total - 2) ∧
      frameChecksum (buffer.take (total - 2)) = u16be (byteAt buffer (total - 2)) (byteAt buffer (total - 1)) := by
  obtain a | ⟨-, -, a⟩ | c := frameDecode_cases p buffer
  · rw [a] at h; cases h
  · rw [a] at h; cases h
  · rw [frameDecode_complete c] at h
    obtain ⟨-, -, e⟩ | ⟨-, -, e⟩ | ⟨-, -, e⟩ | ⟨two, sum, e⟩ :=
      decodeComplete_cases p buffer (announcedLength buffer) (announcedHeader buffer)
    · rw [e] at h; cases h
    · rw [e] at h; cases h
    · rw [e] at h; cases h
    · rw [e] at h; cases h
      exact ⟨c, rfl, rfl, two, rfl, sum⟩

/-- A decided result needs at least 4 bytes. -/
theorem frameDecode_invalid_length {p : Params} {buffer : Bytes} (h : frameDecode p buffer = .ok .invalid) :
    4 ≤ buffer.length := by
  by_contra n
  rw [frameDecode_eq, if_pos (by omega)] at h
  cases h

/-- A valid frame occupies at least 6 bytes and at most those held (43_reassembler.md R149). -/
theorem frameDecode_valid_bounds {p : Params} {buffer : Bytes} {hs total : Nat} {payload : Bytes}
    (h : frameDecode p buffer = .ok (.valid hs total payload)) : 6 ≤ total ∧ total ≤ buffer.length := by
  obtain ⟨c, -, rfl, two, -, -⟩ := frameDecode_valid h
  have := announcedHeader_bounds buffer
  exact ⟨by unfold announcedTotal; omega, c.whole⟩

/-- `Decode` faults only under the alternative parameter value (93 I1). -/
theorem frameDecode_error {p : Params} {buffer : Bytes} {f : Fault} (h : frameDecode p buffer = .error f) :
    p.lenLt2 = .fault := by
  obtain a | ⟨-, -, a⟩ | c := frameDecode_cases p buffer
  · rw [a] at h; cases h
  · rw [a] at h; cases h
  · rw [frameDecode_complete c] at h
    obtain ⟨-, -, e⟩ | ⟨-, q, -⟩ | ⟨-, -, e⟩ | ⟨-, -, e⟩ :=
      decodeComplete_cases p buffer (announcedLength buffer) (announcedHeader buffer)
    · rw [e] at h; cases h
    · exact q
    · rw [e] at h; cases h
    · rw [e] at h; cases h

/-- Under the normative treatment `Decode` always has a result. -/
theorem frameDecode_total {p : Params} (h : p.lenLt2 = .invalid) (buffer : Bytes) : ∃ r, frameDecode p buffer = .ok r := by
  cases e : frameDecode p buffer with
  | ok r => exact ⟨r, rfl⟩
  | error f => rw [frameDecode_error e] at h; cases h

/-- A candidate once complete is decided by its own bytes, faults included. -/
theorem frameDecode_append_complete {p : Params} {buffer : Bytes} (c : Complete p buffer) (t : Bytes) :
    frameDecode p (buffer ++ t) = frameDecode p buffer := by
  obtain ⟨c', l, h⟩ := c.append t
  rw [frameDecode_complete c, frameDecode_complete c', l, h,
    decodeComplete_append p buffer t _ _ c.whole (announcedHeader_bounds buffer).1]

/-- The bytes a valid frame occupies are a valid frame by themselves (42_frame_decode.md R120, R125). -/
theorem frameDecode_take {p : Params} {buffer : Bytes} {hs total : Nat} {payload : Bytes}
    (h : frameDecode p buffer = .ok (.valid hs total payload)) :
    frameDecode p (buffer.take total) = .ok (.valid hs total payload) := by
  obtain ⟨c, -, rfl, two, -, -⟩ := frameDecode_valid h
  have b := announcedHeader_bounds buffer
  have w := c.whole
  have t6 : 6 ≤ announcedTotal buffer := (frameDecode_valid_bounds h).1
  have len : (buffer.take (announcedTotal buffer)).length = announcedTotal buffer := by simp; omega
  have i (k : Nat) (hk : k < announcedTotal buffer) :
      byteAt (buffer.take (announcedTotal buffer)) k = byteAt buffer k := byteAt_take hk
  have same := announced_congr (s := buffer.take (announcedTotal buffer)) (i 3 (by omega)) (fun _ => i 4 (by omega))
  have c' : Complete p (buffer.take (announcedTotal buffer)) := by
    refine ⟨by omega, ?_, ?_, fun _ => by omega, ?_⟩
    · rw [i 0 (by omega), c.marker0]
    · rw [i 1 (by omega), c.marker1]
    · rw [announcedTotal, same.1, same.2]; exact len.ge
  have e := frameDecode_append_complete c' (buffer.drop (announcedTotal buffer))
  rw [List.take_append_drop] at e
  rw [← e, h]

end Sys2Proof.Machine
end

