-- ==== Sys2Proof/Laws/Decode.lean ====
section
/-! SUPPORT. The length field's bits, both ways, for the decoder and the encoder (30_encoding.md R63). -/

namespace Sys2Proof

/-- The first byte of a short field. -/
theorem shortField_form (v : BitVec 7) : extendedForm (0#1 ++ v) = false ∧ shortValue (0#1 ++ v) = v := by
  revert v; decide +kernel

/-- The flag of an extended field. -/
theorem extField_form (h : BitVec 7) : extendedForm (1#1 ++ h) = true ∧ (1#1 ++ h).extractLsb' 0 7 = h := by
  revert h; decide +kernel

/-- A bit of an extended value: the second byte's below 8, the first byte's from 8 on. -/
theorem extValue_getLsbD (b0 b1 : Byte) (i : Nat) :
    (extValue b0 b1).getLsbD i = if i < 8 then b1.getLsbD i else (b0.extractLsb' 0 7).getLsbD (i - 8) := by
  refine (BitVec.getLsbD_append (x := b0.extractLsb' 0 7) (y := b1) (i := i)).trans ?_
  split <;> simp_all

/-- The value of an extended field. -/
theorem extValue_extField (v : BitVec 15) : extValue (1#1 ++ v.extractLsb' 8 7) (v.extractLsb' 0 8) = v := by
  apply BitVec.eq_of_getLsbD_eq
  intro i hi
  rw [extValue_getLsbD, (extField_form _).2]
  by_cases c : i < 8
  · simp [c]
  · have e : 8 + (i - 8) = i := by omega
    have l : i - 8 < 7 := by omega
    simp [c, e, l]

/-- A byte without the flag is the short field of its value. -/
theorem shortField_shortValue (b : Byte) (h : extendedForm b = false) : (0#1 ++ shortValue b : BitVec 8) = b := by
  revert h; revert b; decide +kernel

/-- A byte with the flag is the flag over its value bits. -/
theorem extField_high (b : Byte) (h : extendedForm b = true) : (1#1 ++ b.extractLsb' 0 7 : BitVec 8) = b := by
  revert h; revert b; decide +kernel

/-- The parts of an extended value. -/
theorem extValue_parts (b0 b1 : Byte) :
    (extValue b0 b1).extractLsb' 8 7 = b0.extractLsb' 0 7 ∧ (extValue b0 b1).extractLsb' 0 8 = b1 := by
  constructor
  · apply BitVec.eq_of_getLsbD_eq
    intro i hi
    rw [BitVec.getLsbD_extractLsb', extValue_getLsbD]
    simp [hi]
  · apply BitVec.eq_of_getLsbD_eq
    intro i hi
    rw [BitVec.getLsbD_extractLsb', extValue_getLsbD]
    simp [hi]

/-- A short field as a number. -/
theorem shortField_toNat (v : BitVec 7) : (0#1 ++ v : BitVec 8).toNat = v.toNat := by
  revert v; decide +kernel

/-- An extended field's first byte as a number. -/
theorem extField_toNat (h : BitVec 7) : (1#1 ++ h : BitVec 8).toNat = 128 + h.toNat := by
  revert h; decide +kernel

/-- The two bytes of an extended value as numbers. -/
theorem extParts_toNat (v : BitVec 15) :
    (v.extractLsb' 8 7).toNat = v.toNat / 256 ∧ (v.extractLsb' 0 8).toNat = v.toNat % 256 := by
  have := v.isLt
  constructor
  · simp [BitVec.extractLsb'_toNat, Nat.shiftRight_eq_div_pow]; omega
  · simp [BitVec.extractLsb'_toNat]

/-- The select codes are told apart. -/
theorem selectOf_code (sel : Select) : selectOf sel.code = some sel := by
  cases sel <;> rfl

/-- A code that names an operation is that operation's code (30_encoding.md R75). -/
theorem code_of_selectOf (op : BitVec 4) (sel : Select) (h : selectOf op = some sel) : sel.code = op := by
  revert h; revert op; cases sel <;> decide +kernel

/-- The reserved codes (30_encoding.md R77). -/
theorem selectOf_none_iff (op : BitVec 4) : selectOf op = none ↔ 9 ≤ op.toNat := by
  revert op; decide +kernel

end Sys2Proof
end

