-- ==== Sys2Proof/Laws/Reassembler.lean ====
section
/-! SUPPORT. The marker scan and the feed loop: every pass shortens the accumulator, so the number of passes allowed does
not matter beyond the bytes held, and payloads emitted earlier only stand in front. -/

namespace Sys2Proof.Machine

/-! ## The marker -/

/-- An occurrence behind the first byte is an occurrence in the rest. -/
theorem markerAt_cons_succ (p : Params) (x : Byte) (a : Bytes) (i : Nat) : MarkerAt p (x :: a) (i + 1) ↔ MarkerAt p a i := by
  simp [MarkerAt]

/-- An occurrence at offset 0. -/
theorem markerAt_cons_zero (p : Params) (x y : Byte) (a : Bytes) :
    MarkerAt p (x :: y :: a) 0 ↔ x = p.im0 ∧ y = p.im1 := by
  simp [MarkerAt]

/-- An occurrence stays one with bytes appended. -/
theorem MarkerAt.append {p : Params} {a : Bytes} {i : Nat} (h : MarkerAt p a i) (t : Bytes) : MarkerAt p (a ++ t) i := by
  obtain ⟨l, h0, h1⟩ := h
  refine ⟨by simp; omega, ?_, ?_⟩
  · rw [List.getElem?_append_left (by omega), h0]
  · rw [List.getElem?_append_left (by omega), h1]

/-- An occurrence inside the first part of a concatenation is one of that part. -/
theorem MarkerAt.of_append {p : Params} {a t : Bytes} {i : Nat} (h : MarkerAt p (a ++ t) i) (l : i + 1 < a.length) :
    MarkerAt p a i := by
  obtain ⟨-, h0, h1⟩ := h
  rw [List.getElem?_append_left (by omega)] at h0 h1
  exact ⟨l, h0, h1⟩

/-- The inbound marker as a prefix of two bytes. -/
theorem markerAt_zero_iff_take (p : Params) (a : Bytes) : MarkerAt p a 0 ↔ a.take 2 = p.inMarker := by
  rcases a with - | ⟨x, - | ⟨y, a⟩⟩ <;> simp [MarkerAt, Params.inMarker]

/-- Both marker bytes stand inside the accumulator. -/
theorem findMarker_lt {p : Params} {a : Bytes} {i : Nat} (h : findMarker p a = some i) : i + 1 < a.length := by
  induction a generalizing i with
  | nil => simp [findMarker] at h
  | cons x a ih =>
    cases a with
    | nil => simp [findMarker] at h
    | cons y rest =>
      rw [findMarker] at h
      by_cases c : x = p.im0 ∧ y = p.im1
      · rw [if_pos c] at h; cases h; simp
      · rw [if_neg c] at h
        cases e : findMarker p (y :: rest) with
        | none => rw [e] at h; cases h
        | some k => rw [e] at h; cases h; have := ih e; simp at this ⊢; omega

/-! ## One pass -/

/-- Where one pass of the loop leads: to a stop, to a fault, or on with a shorter accumulator (43_reassembler.md R149).
The last two disjuncts are the three `goto`s of R156. -/
theorem feedLoop_succ (p : Params) (label : Label) (acc : Bytes) (emitted : List Bytes) :
    (label = .s1 ∧ acc.length < 4 ∧ ∀ f, feedLoop p (f + 1) label acc emitted = .ok ⟨acc, emitted, .tooShort⟩) ∨
    (¬ (label = .s1 ∧ acc.length < 4) ∧
      ((findMarker p acc = none ∧ ∀ f, feedLoop p (f + 1) label acc emitted = .ok ⟨[], emitted, .cleared⟩) ∨
       (∃ i, findMarker p acc = some (i + 1) ∧
          ∀ f, feedLoop p (f + 1) label acc emitted = feedLoop p f .s1 (acc.drop (i + 1)) emitted) ∨
       (findMarker p acc = some 0 ∧
          ((∃ e, frameDecode p acc = .error e ∧ ∀ f, feedLoop p (f + 1) label acc emitted = .error e) ∨
           (frameDecode p acc = .ok .incomplete ∧
              ∀ f, feedLoop p (f + 1) label acc emitted = .ok ⟨acc, emitted, .waiting⟩) ∨
           (frameDecode p acc = .ok .invalid ∧
              ∀ f, feedLoop p (f + 1) label acc emitted = feedLoop p f .s2 (acc.drop 2) emitted) ∨
           (∃ hs total payload, frameDecode p acc = .ok (.valid hs total payload) ∧
              ∀ f, feedLoop p (f + 1) label acc emitted =
                feedLoop p f .s1 (acc.drop total) (emitted ++ [payload])))))) := by
  by_cases short : label = .s1 ∧ acc.length < 4
  · left
    exact ⟨short.1, short.2, fun f => by rw [feedLoop, if_pos (by exact short)]⟩
  · right
    refine ⟨short, ?_⟩
    rcases m : findMarker p acc with - | - | i
    · left; exact ⟨rfl, fun f => by rw [feedLoop, if_neg (by exact short), m]⟩
    · right; right
      refine ⟨rfl, ?_⟩
      rcases d : frameDecode p acc with e | - | - | ⟨hs, total, payload⟩
      · left; exact ⟨e, rfl, fun f => by rw [feedLoop, if_neg (by exact short), m]; simp only [d]⟩
      · right; left; exact ⟨rfl, fun f => by rw [feedLoop, if_neg (by exact short), m]; simp only [d]⟩
      · right; right; left; exact ⟨rfl, fun f => by rw [feedLoop, if_neg (by exact short), m]; simp only [d]⟩
      · right; right; right; exact ⟨hs, total, payload, rfl, fun f => by rw [feedLoop, if_neg (by exact short), m]; simp only [d]⟩
    · right; left; exact ⟨i, rfl, fun f => by rw [feedLoop, if_neg (by exact short), m]⟩

/-- More passes than bytes held change nothing (43_reassembler.md R149), so `feedLoop`'s first line is never met. -/
theorem feedLoop_fuel (p : Params) (fuel : Nat) : ∀ (more : Nat) (label : Label) (acc : Bytes) (emitted : List Bytes),
    acc.length < fuel → feedLoop p (fuel + more) label acc emitted = feedLoop p fuel label acc emitted := by
  induction fuel with
  | zero => intro more label acc emitted h; omega
  | succ k ih =>
    intro more label acc emitted h
    rw [show k + 1 + more = (k + more) + 1 by omega]
    obtain ⟨-, -, e⟩ | ⟨-, ⟨-, e⟩ | ⟨i, m, e⟩ | ⟨m, ⟨_, -, e⟩ | ⟨-, e⟩ | ⟨d, e⟩ | ⟨hs, total, payload, d, e⟩⟩⟩ :=
      feedLoop_succ p label acc emitted
    · rw [e, e]
    · rw [e, e]
    · rw [e, e]
      have := findMarker_lt m
      exact ih more _ _ _ (by rw [List.length_drop]; omega)
    · rw [e, e]
    · rw [e, e]
    · rw [e, e]
      have := frameDecode_invalid_length d
      exact ih more _ _ _ (by rw [List.length_drop]; omega)
    · rw [e, e]
      have := frameDecode_valid_bounds d
      exact ih more _ _ _ (by rw [List.length_drop]; omega)

/-- Any two sufficient numbers of passes agree. -/
theorem feedLoop_fuel_eq {p : Params} {f g : Nat} {label : Label} {acc : Bytes} {emitted : List Bytes}
    (hf : acc.length < f) (hg : acc.length < g) :
    feedLoop p f label acc emitted = feedLoop p g label acc emitted := by
  have a := feedLoop_fuel p (acc.length + 1) (f - (acc.length + 1)) label acc emitted (by omega)
  have b := feedLoop_fuel p (acc.length + 1) (g - (acc.length + 1)) label acc emitted (by omega)
  rw [show acc.length + 1 + (f - (acc.length + 1)) = f by omega] at a
  rw [show acc.length + 1 + (g - (acc.length + 1)) = g by omega] at b
  rw [a, b]

/-- Payloads emitted before a pass stand in front of those emitted after it (43_reassembler.md R148). -/
theorem feedLoop_emitted (p : Params) (fuel : Nat) : ∀ (label : Label) (acc : Bytes) (emitted : List Bytes),
    feedLoop p fuel label acc emitted =
      (feedLoop p fuel label acc []).map (fun r => { r with emitted := emitted ++ r.emitted }) := by
  induction fuel with
  | zero => intro label acc emitted; simp [feedLoop, Except.map]
  | succ k ih =>
    intro label acc emitted
    by_cases short : label = .s1 ∧ acc.length < 4
    · simp [feedLoop, short, Except.map, Config.minDecodeBytes]
    · unfold feedLoop
      rw [if_neg (by exact short), if_neg (by exact short)]
      rcases m : findMarker p acc with - | - | i
      · simp [Except.map]
      · rcases d : frameDecode p acc with e | - | - | ⟨hs, total, payload⟩
        · simp [Except.map]
        · simp [Except.map]
        · exact ih .s2 (acc.drop 2) emitted
        · simp only [List.nil_append]
          rw [ih .s1 (acc.drop total) (emitted ++ [payload]), ih .s1 (acc.drop total) [payload]]
          cases feedLoop p k .s1 (acc.drop total) [] <;> simp [Except.map]
      · exact ih .s1 (acc.drop (i + 1)) emitted

/-- `Reassemble` is the loop on the concatenation, with any sufficient number of passes. -/
theorem reassemble_eq (p : Params) (acc0 chunk : Bytes) {fuel : Nat} (h : (acc0 ++ chunk).length < fuel) :
    reassemble p acc0 chunk = feedLoop p fuel .s1 (acc0 ++ chunk) [] :=
  feedLoop_fuel_eq (by omega) h

/-- `Reassemble` sees the accumulator and the chunk only joined (43_reassembler.md R142). -/
theorem reassemble_append (p : Params) (acc0 chunk : Bytes) : reassemble p acc0 chunk = reassemble p [] (acc0 ++ chunk) :=
  rfl

/-- The loop never faults under the normative treatment of a length below 2. -/
theorem feedLoop_total {p : Params} (h : p.lenLt2 = .invalid) (fuel : Nat) :
    ∀ (label : Label) (acc : Bytes) (emitted : List Bytes), ∃ r, feedLoop p fuel label acc emitted = .ok r := by
  induction fuel with
  | zero => intro label acc emitted; exact ⟨_, rfl⟩
  | succ k ih =>
    intro label acc emitted
    obtain ⟨-, -, e⟩ | ⟨-, ⟨-, e⟩ | ⟨i, -, e⟩ | ⟨-, ⟨f, d, -⟩ | ⟨-, e⟩ | ⟨-, e⟩ | ⟨hs, total, payload, -, e⟩⟩⟩ :=
      feedLoop_succ p label acc emitted
    · exact ⟨_, e k⟩
    · exact ⟨_, e k⟩
    · rw [e]; exact ih _ _ _
    · rw [frameDecode_error d] at h; cases h
    · exact ⟨_, e k⟩
    · rw [e]; exact ih _ _ _
    · rw [e]; exact ih _ _ _

/-- The loop faults only under the alternative parameter value (93 I1). -/
theorem feedLoop_error {p : Params} {fuel : Nat} {label : Label} {acc : Bytes} {emitted : List Bytes} {f : Fault}
    (h : feedLoop p fuel label acc emitted = .error f) : p.lenLt2 = .fault := by
  cases c : p.lenLt2 with
  | fault => rfl
  | invalid => obtain ⟨r, e⟩ := feedLoop_total c fuel label acc emitted; rw [e] at h; cases h

/-- No pass adds bytes: what is left is at most what was held. -/
theorem feedLoop_length {p : Params} (fuel : Nat) : ∀ {label : Label} {acc : Bytes} {emitted : List Bytes} {r : Reassembly},
    feedLoop p fuel label acc emitted = .ok r → r.acc.length ≤ acc.length := by
  induction fuel with
  | zero => intro label acc emitted r h; cases h; exact le_rfl
  | succ k ih =>
    intro label acc emitted r h
    obtain ⟨-, -, e⟩ | ⟨-, ⟨-, e⟩ | ⟨i, -, e⟩ | ⟨-, ⟨f, -, e⟩ | ⟨-, e⟩ | ⟨-, e⟩ | ⟨hs, total, payload, -, e⟩⟩⟩ :=
      feedLoop_succ p label acc emitted
    all_goals rw [e] at h
    · cases h; exact le_rfl
    · cases h; simp
    · exact (ih h).trans (by simp)
    · cases h
    · cases h; exact le_rfl
    · exact (ih h).trans (by simp)
    · exact (ih h).trans (by simp)

/-- Every payload the loop emits was decoded as valid at some place of the accumulator (43_reassembler.md R153). -/
theorem feedLoop_emitted_valid {p : Params} (fuel : Nat) :
    ∀ {label : Label} {acc : Bytes} {emitted : List Bytes} {r : Reassembly},
    feedLoop p fuel label acc emitted = .ok r → ∀ payload ∈ r.emitted, payload ∈ emitted ∨
      ∃ n hs total, frameDecode p (acc.drop n) = .ok (.valid hs total payload) := by
  induction fuel with
  | zero => intro label acc emitted r h payload m; cases h; exact .inl m
  | succ k ih =>
    have deeper {acc : Bytes} {d : Nat} {payload : Bytes} {emitted : List Bytes}
        (h : payload ∈ emitted ∨ ∃ n hs total, frameDecode p ((acc.drop d).drop n) = .ok (.valid hs total payload)) :
        payload ∈ emitted ∨ ∃ n hs total, frameDecode p (acc.drop n) = .ok (.valid hs total payload) :=
      h.imp id (fun ⟨n, x⟩ => ⟨d + n, by rwa [List.drop_drop] at x⟩)
    intro label acc emitted r h payload m
    obtain ⟨-, -, e⟩ | ⟨-, ⟨-, e⟩ | ⟨i, -, e⟩ | ⟨-, ⟨f, -, e⟩ | ⟨-, e⟩ | ⟨-, e⟩ | ⟨hs, total, q, v, e⟩⟩⟩ :=
      feedLoop_succ p label acc emitted
    all_goals rw [e] at h
    · cases h; exact .inl m
    · cases h; exact .inl m
    · exact deeper (ih h payload m)
    · cases h
    · cases h; exact .inl m
    · exact deeper (ih h payload m)
    · obtain here | later := deeper (ih h payload m)
      · obtain old | new := List.mem_append.mp here
        · exact .inl old
        · rw [List.mem_singleton] at new
          exact .inr ⟨0, hs, total, by rw [new]; exact v⟩
      · exact .inr later

end Sys2Proof.Machine
end

