-- ==== Sys2Proof/Laws/State.lean ====
section
/-! SUPPORT. One lemma per field per update of the state, and the read laws of the accumulator. -/

namespace Sys2Proof.Machine

variable (s : State)

@[simp] theorem State.respond_params (r : Response) : (s.respond r).params = s.params := rfl
@[simp] theorem State.respond_crcReg (r : Response) : (s.respond r).crcReg = s.crcReg := rfl
@[simp] theorem State.respond_acc (r : Response) : (s.respond r).acc = s.acc := rfl
@[simp] theorem State.respond_pending (r : Response) : (s.respond r).pending = s.pending := rfl
@[simp] theorem State.respond_responses (r : Response) : (s.respond r).responses = s.responses ++ [r] := rfl

@[simp] theorem State.setCrc_params (v : Word) : (s.setCrc v).params = s.params := rfl
@[simp] theorem State.setCrc_crcReg (v : Word) : (s.setCrc v).crcReg = v := rfl
@[simp] theorem State.setCrc_acc (v : Word) : (s.setCrc v).acc = s.acc := rfl
@[simp] theorem State.setCrc_pending (v : Word) : (s.setCrc v).pending = s.pending := rfl
@[simp] theorem State.setCrc_responses (v : Word) : (s.setCrc v).responses = s.responses := rfl

@[simp] theorem State.setAcc_params (a : Bytes) : (s.setAcc a).params = s.params := rfl
@[simp] theorem State.setAcc_crcReg (a : Bytes) : (s.setAcc a).crcReg = s.crcReg := rfl
@[simp] theorem State.setAcc_acc (a : Bytes) : (s.setAcc a).acc = a := rfl
@[simp] theorem State.setAcc_pending (a : Bytes) : (s.setAcc a).pending = s.pending := rfl
@[simp] theorem State.setAcc_responses (a : Bytes) : (s.setAcc a).responses = s.responses := rfl

@[simp] theorem State.applyReset_params : s.applyReset.params = s.params := rfl
@[simp] theorem State.applyReset_crcReg : s.applyReset.crcReg = 0x0000#16 := rfl
@[simp] theorem State.applyReset_acc : s.applyReset.acc = [] := rfl
@[simp] theorem State.applyReset_pending : s.applyReset.pending = s.pending := rfl
@[simp] theorem State.applyReset_responses : s.applyReset.responses = s.responses := rfl

@[simp] theorem State.resetWith_params (p : Params) : (State.resetWith p).params = p := rfl
@[simp] theorem State.resetWith_crcReg (p : Params) : (State.resetWith p).crcReg = 0x0000#16 := rfl
@[simp] theorem State.resetWith_acc (p : Params) : (State.resetWith p).acc = [] := rfl
@[simp] theorem State.resetWith_pending (p : Params) : (State.resetWith p).pending = [] := rfl
@[simp] theorem State.resetWith_responses (p : Params) : (State.resetWith p).responses = [] := rfl

@[simp] theorem State.withProgram_pending (is : List Instr) : (s.withProgram is).pending = invocations is := rfl

/-- An equal accumulator reads equally everywhere. -/
theorem State.memRead_congr {s t : State} (h : t.acc = s.acc) (addr n : Nat) : t.memRead addr n = s.memRead addr n := by
  simp [State.memRead, h]

/-- A read inside the accumulator returns as many bytes as were asked for. -/
theorem State.memRead_length {s : State} {addr n : Nat} {b : Bytes} (h : s.memRead addr n = some b) : b.length = n := by
  unfold State.memRead at h
  split at h
  · cases h; simp [slice]; omega
  · cases h

end Sys2Proof.Machine
end

