-- ==== Sys2Proof/Laws/Ops.lean ====
section
/-! SUPPORT. Everything the shared operations over the state can answer, said once. -/

namespace Sys2Proof.Machine

@[simp] theorem answer_eq (r : Result) (s : State) : answer r s = .next (s.respond (.ok r)) := rfl

@[simp] theorem refuse_eq (r : Response) (s : State) : refuse r s = .next (s.respond r) := rfl

@[simp] theorem answerSealed_eq (body : Bytes) (s : State) :
    answerSealed body s = .next (s.respond (.ok (.frame (sealFrame body)))) := rfl

@[simp] theorem answerLength_eq (field : Bytes) (s : State) : answerLength field s =
    .next (s.respond (.ok (.lengthValue (lenDec (byteAt field 0) (byteAt field 1)).1
      (lenDec (byteAt field 0) (byteAt field 1)).2))) := rfl

/-- Answering with a decode result: the result is returned, or the parameter of 93 I1 faults. -/
theorem answerDecode_cases (buffer : Bytes) (s : State) :
    (∃ r, frameDecode s.params buffer = .ok r ∧ answerDecode buffer s = .next (s.respond (.ok (.decoded r)))) ∨
    (∃ f, frameDecode s.params buffer = .error f ∧ answerDecode buffer s = .fault f) := by
  unfold answerDecode
  cases frameDecode s.params buffer with
  | ok r => exact .inl ⟨r, rfl, rfl⟩
  | error f => exact .inr ⟨f, rfl, rfl⟩

/-- The capacity test in numbers (20_memory.md R47). -/
theorem overflows_iff (s : State) (chunk : Bytes) :
    overflows s chunk = true ↔ ∃ cap, s.params.accCap = some cap ∧ cap < s.acc.length + chunk.length := by
  unfold overflows
  cases s.params.accCap <;> simp

/-- The three ways a `FEED` can go (43_reassembler.md R148). -/
theorem execFeed_cases (chunk : Bytes) (s : State) :
    (overflows s chunk = true ∧ execFeed chunk s = .next (s.respond .refusedOverflow)) ∨
    (overflows s chunk = false ∧ ∃ r, reassemble s.params s.acc chunk = .ok r ∧
      execFeed chunk s = .next ((s.setAcc r.acc).respond (.ok (.emitted r.emitted)))) ∨
    (overflows s chunk = false ∧ ∃ f, reassemble s.params s.acc chunk = .error f ∧ execFeed chunk s = .fault f) := by
  unfold execFeed
  cases overflows s chunk with
  | true => exact .inl ⟨rfl, rfl⟩
  | false =>
    right
    cases reassemble s.params s.acc chunk with
    | ok r => exact .inl ⟨rfl, r, rfl, rfl⟩
    | error f => exact .inr ⟨rfl, f, rfl, rfl⟩

/-- The two ways an `ENCODE` can go (41_frame_encode.md R111, R112). -/
theorem execEncode_cases (cmd1 cmd2 : Byte) (payload : Bytes) (s : State) :
    (32767 < payload.length ∧ execEncode cmd1 cmd2 payload s = .next (s.respond .refusedTooLong)) ∨
    (payload.length ≤ 32767 ∧ execEncode cmd1 cmd2 payload s =
      .next (s.respond (.ok (.frame (frameEncode s.params cmd1 cmd2 payload))))) := by
  unfold execEncode Config.lenMax
  by_cases h : payload.length > 32767
  · exact .inl ⟨h, by rw [if_pos h]; rfl⟩
  · exact .inr ⟨by omega, by rw [if_neg h]; rfl⟩

/-- Taking the owner's next input touches nothing but the input list. -/
theorem fetch_run {s s' : State} {i : Instr} (h : fetch s = .run i s') :
    ∃ item rest, s.pending = .invoke item :: rest ∧ decode item = .ok i ∧ s' = { s with pending := rest } := by
  unfold fetch at h
  split at h
  · cases h
  · cases h
  · cases h
  · cases h
  · rename_i item rest hp
    split at h
    · rename_i j hj
      cases h
      exact ⟨item, rest, hp, hj, rfl⟩
    · cases h

/-- Every way a step can give a next state. -/
theorem step_next {s t : State} (h : step s = .next t) :
    (s.pending = [] ∧ t = s) ∨
    (∃ rest, s.pending = .reset :: rest ∧ t = State.applyReset { s with pending := rest }) ∨
    (∃ item rest i, s.pending = .invoke item :: rest ∧ decode item = .ok i ∧
      exec i { s with pending := rest } = .next t) ∨
    (∃ item rest why, s.pending = .invoke item :: rest ∧ decode item = .error why ∧
      answerReject why { s with pending := rest } = .next t) := by
  rw [step, fetch] at h
  rcases hp : s.pending with - | ⟨ev, rest⟩
  · rw [hp] at h; cases h; exact .inl ⟨rfl, rfl⟩
  · rw [hp] at h
    rcases ev with item | - | ⟨a, b⟩ | item
    · rcases hd : decode item with why | i
      · simp only [hd] at h
        exact .inr (.inr (.inr ⟨item, rest, why, rfl, hd, h⟩))
      · simp only [hd] at h
        exact .inr (.inr (.inl ⟨item, rest, i, rfl, hd, h⟩))
    · cases h; exact .inr (.inl ⟨rest, rfl, rfl⟩)
    · cases h
    · cases h

/-- Every way a rejected item can give a next state: a response with the block unchanged. -/
theorem answerReject_next {why : Reject} {s t : State} (h : answerReject why s = .next t) :
    ∃ r, t = s.respond r := by
  cases why with
  | reservedSelectCode => cases h; exact ⟨_, rfl⟩
  | operandShape => cases h
  | noInboundHeader bytes =>
    obtain ⟨r, -, e⟩ | ⟨f, -, e⟩ := answerDecode_cases bytes s
    · rw [answerReject, e] at h; cases h; exact ⟨_, rfl⟩
    · rw [answerReject, e] at h; cases h
  | noOutboundHeader => cases h
  | noLengthField => cases h

/-- A run of any machine goes on from the first step's next state. -/
theorem run_of_step_next {M : Host.Core} {s t : M.State} (k : Nat) (h : M.step s = .next t) :
    M.run (k + 1) s = M.run k t := by
  simp [Host.Core.run, h]

/-- A run goes on from the first step's next state. -/
theorem run_succ {s t : State} (k : Nat) (h : step s = .next t) : core.run (k + 1) s = core.run k t :=
  run_of_step_next (M := core) k h

@[simp] theorem run_zero (s : State) : core.run 0 s = .next s := rfl

end Sys2Proof.Machine
end

