-- ==== Sys2Proof/Laws/Owner.lean ====
section
/-! SUPPORT. What an operation's response emits, and what the software around the block makes of it
(44_context_software.md R171 to R176). -/

namespace Sys2Proof.Machine

@[simp] theorem Response.payloads_emitted (l : List Bytes) : (Response.ok (.emitted l)).payloads = l := rfl
@[simp] theorem Response.payloads_none : (Response.ok .none).payloads = [] := rfl
@[simp] theorem Response.payloads_value (v : Word) : (Response.ok (.value v)).payloads = [] := rfl
@[simp] theorem Response.payloads_frame (b : Bytes) : (Response.ok (.frame b)).payloads = [] := rfl
@[simp] theorem Response.payloads_decoded (r : FrameResult) : (Response.ok (.decoded r)).payloads = [] := rfl
@[simp] theorem Response.payloads_lengthValue (v n : Nat) : (Response.ok (.lengthValue v n)).payloads = [] := rfl
@[simp] theorem Response.payloads_refusedBadOp : Response.refusedBadOp.payloads = [] := rfl
@[simp] theorem Response.payloads_refusedTooLong : Response.refusedTooLong.payloads = [] := rfl
@[simp] theorem Response.payloads_refusedOverflow : Response.refusedOverflow.payloads = [] := rfl

@[simp] theorem emittedPayloads_nil : emittedPayloads [] = [] := rfl

@[simp] theorem emittedPayloads_cons (r : Response) (rest : List Response) :
    emittedPayloads (r :: rest) = r.payloads ++ emittedPayloads rest := rfl

/-- A streamed state is an emitted payload parsed. -/
theorem mem_streamedStates {order : ButtonsOrder} {extended : Bool} {responses : List Response} {c : ControllerState} :
    c ∈ streamedStates order extended responses ↔
      ∃ payload ∈ emittedPayloads responses, parseState order extended payload = some c :=
  List.mem_filterMap

/-- A parsed payload has the state report's tag and length (44_context_software.md R176). -/
theorem parseState_some {order : ButtonsOrder} {extended : Bool} {payload : Bytes} {c : ControllerState}
    (h : parseState order extended payload = some c) : 14 ≤ payload.length ∧ byteAt payload 0 = 0x60#8 := by
  unfold parseState at h
  split at h
  · cases h
  · rename_i n
    rw [not_or, not_not] at n
    exact ⟨by omega, n.2⟩

/-- The reply is one of the payloads emitted. -/
theorem firstReply_mem {responses : List Response} {payload : Bytes} (h : firstReply responses = some payload) :
    payload ∈ emittedPayloads responses := by
  fun_induction firstReply responses with
  | case1 => cases h
  | case2 q => cases h; simp
  | case3 r rest _ ih => simp [ih h]

/-- What a `DECODE`-like answer emits: nothing. -/
theorem answerDecode_payloads {buffer : Bytes} {s t : State} (h : answerDecode buffer s = .next t) :
    ∃ r, t.responses = s.responses ++ [r] ∧ r.payloads = [] := by
  obtain ⟨r, -, e⟩ | ⟨f, -, e⟩ := answerDecode_cases buffer s <;> (rw [e] at h; cases h)
  exact ⟨_, rfl, rfl⟩

/-- Every operation answers one response, and only a `FEED` that ran emits payloads (43_reassembler.md R153). -/
theorem exec_payloads {i : Instr} {s t : State} (h : exec i s = .next t) :
    ∃ r, t.responses = s.responses ++ [r] ∧ (r.payloads = [] ∨
      ∃ chunk result, i = .feed chunk ∧ reassemble s.params s.acc chunk = .ok result ∧ r.payloads = result.emitted) := by
  have quiet {t : State} : (∃ r, t.responses = s.responses ++ [r] ∧ r.payloads = []) →
      ∃ r, t.responses = s.responses ++ [r] ∧ (r.payloads = [] ∨
        ∃ chunk result, i = .feed chunk ∧ reassemble s.params s.acc chunk = .ok result ∧ r.payloads = result.emitted) :=
    fun ⟨r, a, b⟩ => ⟨r, a, .inl b⟩
  cases i with
  | nop => cases h; exact quiet ⟨_, rfl, rfl⟩
  | crcInit seed => cases h; exact quiet ⟨_, rfl, rfl⟩
  | crcUpdate b => cases h; exact quiet ⟨_, rfl, rfl⟩
  | crcRead => cases h; exact quiet ⟨_, rfl, rfl⟩
  | crcCompute data initial => cases h; exact quiet ⟨_, rfl, rfl⟩
  | encode cmd1 cmd2 payload =>
    obtain ⟨-, e⟩ | ⟨-, e⟩ := execEncode_cases cmd1 cmd2 payload s <;> (rw [exec, e] at h; cases h) <;>
      exact quiet ⟨_, rfl, rfl⟩
  | decode buffer => exact quiet (answerDecode_payloads h)
  | feed chunk =>
    obtain ⟨-, e⟩ | ⟨-, result, v, e⟩ | ⟨-, f, -, e⟩ := execFeed_cases chunk s <;> (rw [exec, e] at h; cases h)
    · exact quiet ⟨_, rfl, rfl⟩
    · exact ⟨_, rfl, .inr ⟨chunk, result, rfl, v, rfl⟩⟩
  | rxClear => cases h; exact quiet ⟨_, rfl, rfl⟩
  | frameInShort im0 im1 hc len rest => exact quiet (answerDecode_payloads h)
  | frameInExt im0 im1 hc len rest => exact quiet (answerDecode_payloads h)
  | frameOutShort om0 om1 om2 om3 cmd1 cmd2 len payload => cases h; exact quiet ⟨_, rfl, rfl⟩
  | frameOutExt om0 om1 om2 om3 cmd1 cmd2 len payload => cases h; exact quiet ⟨_, rfl, rfl⟩
  | lenShort v => cases h; exact quiet ⟨_, rfl, rfl⟩
  | lenExt v => cases h; exact quiet ⟨_, rfl, rfl⟩

/-- A rejected item emits nothing. -/
theorem answerReject_payloads {why : Reject} {s t : State} (h : answerReject why s = .next t) :
    ∃ r, t.responses = s.responses ++ [r] ∧ r.payloads = [] := by
  cases why with
  | reservedSelectCode => cases h; exact ⟨_, rfl, rfl⟩
  | operandShape => cases h
  | noInboundHeader bytes => exact answerDecode_payloads h
  | noOutboundHeader => cases h
  | noLengthField => cases h

end Sys2Proof.Machine
end

