-- ==== Sys2Proof/Laws/PerInstr.lean ====
section
/-! SUPPORT. The family `RowBits`: the encoding of every instruction carries the fixed bits of its opcode-table row, by
the table's own match and mask (30_encoding.md R80). -/

namespace Sys2Proof.Laws.RowBits

/-- A row of spec/opcode_table.json: its width in bits, mask and match. -/
structure Row where
  width : Nat
  mask : Nat
  value : Nat

/-- The rows as the table lists them. -/
def row : Instr → Row
  | .nop => ⟨4, 0xF, 0x0⟩
  | .crcInit _ => ⟨4, 0xF, 0x1⟩
  | .crcUpdate _ => ⟨4, 0xF, 0x2⟩
  | .crcRead => ⟨4, 0xF, 0x3⟩
  | .crcCompute _ _ => ⟨4, 0xF, 0x4⟩
  | .encode _ _ _ => ⟨4, 0xF, 0x5⟩
  | .decode _ => ⟨4, 0xF, 0x6⟩
  | .feed _ => ⟨4, 0xF, 0x7⟩
  | .rxClear => ⟨4, 0xF, 0x8⟩
  | .frameInShort _ _ _ _ _ => ⟨32, 0x00000080, 0x00000000⟩
  | .frameInExt _ _ _ _ _ => ⟨40, 0x0000008000, 0x0000008000⟩
  | .frameOutShort _ _ _ _ _ _ _ _ => ⟨56, 0x00000000000080, 0x00000000000000⟩
  | .frameOutExt _ _ _ _ _ _ _ _ => ⟨64, 0x0000000000008000, 0x0000000000008000⟩
  | .lenShort _ => ⟨8, 0x80, 0x00⟩
  | .lenExt _ => ⟨16, 0x8000, 0x8000⟩

/-- The number whose bytes, most significant first, are given. -/
def number (bytes : Bytes) : Nat := bytes.foldl (fun n b => n * 256 + b.toNat) 0

/-- An item's first bits as the table numbers them. -/
def bits (width : Nat) : Item → Nat
  | .command c => c.op.toNat
  | .wire _ bytes => number (bytes.take (width / 8))

/-- The encoding of `i` matches its row. -/
def Statement (i : Instr) : Prop := bits (row i).width (encode i) &&& (row i).mask = (row i).value

/-- A clear bit under a one-bit mask. -/
theorem masked_clear (n k : Nat) (h : n / 2 ^ k % 2 = 0) : n &&& 2 ^ k = 0 := by
  apply Nat.eq_of_testBit_eq
  intro i
  rw [Nat.testBit_and, Nat.testBit_two_pow, Nat.zero_testBit]
  by_cases c : k = i
  · subst c; simp [Nat.testBit_eq_decide_div_mod_eq, h]
  · simp [c]

/-- A set bit under a one-bit mask. -/
theorem masked_set (n k : Nat) (h : n / 2 ^ k % 2 = 1) : n &&& 2 ^ k = 2 ^ k := by
  apply Nat.eq_of_testBit_eq
  intro i
  rw [Nat.testBit_and, Nat.testBit_two_pow]
  by_cases c : k = i
  · subst c; simp [Nat.testBit_eq_decide_div_mod_eq, h]
  · simp [c]

theorem nop : Statement .nop := rfl
theorem crcInit (seed : Word) : Statement (.crcInit seed) := by
  simp [Statement, bits, row, Sys2Proof.encode]
theorem crcUpdate (b : Byte) : Statement (.crcUpdate b) := by
  simp [Statement, bits, row, Sys2Proof.encode]
theorem crcRead : Statement .crcRead := rfl
theorem crcCompute (data : Bytes) (initial : Word) : Statement (.crcCompute data initial) := by
  simp [Statement, bits, row, Sys2Proof.encode]
theorem encode (cmd1 cmd2 : Byte) (payload : Bytes) : Statement (.encode cmd1 cmd2 payload) := by
  simp [Statement, bits, row, Sys2Proof.encode]
theorem decode (buffer : Bytes) : Statement (.decode buffer) := by
  simp [Statement, bits, row, Sys2Proof.encode]
theorem feed (chunk : Bytes) : Statement (.feed chunk) := by
  simp [Statement, bits, row, Sys2Proof.encode]
theorem rxClear : Statement .rxClear := rfl

theorem frameInShort (im0 im1 hc : Byte) (len : BitVec 7) (rest : Bytes) :
    Statement (.frameInShort im0 im1 hc len rest) := by
  have := len.isLt
  apply masked_clear _ 7
  simp only [bits, row, Sys2Proof.encode, shortField, List.cons_append, List.nil_append, number, Nat.reduceDiv,
    List.take_succ_cons, List.take_zero, List.foldl_cons, List.foldl_nil, shortField_toNat]
  omega

theorem frameInExt (im0 im1 hc : Byte) (len : BitVec 15) (rest : Bytes) :
    Statement (.frameInExt im0 im1 hc len rest) := by
  have := len.isLt
  have parts := extParts_toNat len
  apply masked_set _ 15
  simp only [bits, row, Sys2Proof.encode, extField, List.cons_append, List.nil_append, number, Nat.reduceDiv,
    List.take_succ_cons, List.take_zero, List.foldl_cons, List.foldl_nil, extField_toNat, parts.1, parts.2]
  omega

theorem frameOutShort (om0 om1 om2 om3 cmd1 cmd2 : Byte) (len : BitVec 7) (payload : Bytes) :
    Statement (.frameOutShort om0 om1 om2 om3 cmd1 cmd2 len payload) := by
  have := len.isLt
  apply masked_clear _ 7
  simp only [bits, row, Sys2Proof.encode, shortField, List.cons_append, List.nil_append, number, Nat.reduceDiv,
    List.take_succ_cons, List.take_zero, List.foldl_cons, List.foldl_nil, shortField_toNat]
  omega

theorem frameOutExt (om0 om1 om2 om3 cmd1 cmd2 : Byte) (len : BitVec 15) (payload : Bytes) :
    Statement (.frameOutExt om0 om1 om2 om3 cmd1 cmd2 len payload) := by
  have := len.isLt
  have parts := extParts_toNat len
  apply masked_set _ 15
  simp only [bits, row, Sys2Proof.encode, extField, List.cons_append, List.nil_append, number, Nat.reduceDiv,
    List.take_succ_cons, List.take_zero, List.foldl_cons, List.foldl_nil, extField_toNat, parts.1, parts.2]
  omega

theorem lenShort (v : BitVec 7) : Statement (.lenShort v) := by
  have := v.isLt
  apply masked_clear _ 7
  simp only [bits, row, Sys2Proof.encode, shortField, number, Nat.reduceDiv, List.take_succ_cons, List.take_zero,
    List.foldl_cons, List.foldl_nil, shortField_toNat]
  omega

theorem lenExt (v : BitVec 15) : Statement (.lenExt v) := by
  have := v.isLt
  have parts := extParts_toNat v
  apply masked_set _ 15
  simp only [bits, row, Sys2Proof.encode, extField, number, Nat.reduceDiv, List.take_succ_cons, List.take_zero,
    List.foldl_cons, List.foldl_nil, extField_toNat, parts.1, parts.2]
  omega

end Sys2Proof.Laws.RowBits
end

