-- ==== Sys2Proof/Tests/Slice0.lean ====
section
/-! SUPPORT. Tests: the well-formedness checks, decoding of words written out from 30_encoding.md, single steps with the
results of 95_test_vectors.md, and for every obligation with hypotheses a witness that meets them (95_test_vectors.md,
how to read this file, gives the names F0, F1, F2, F3 and F1x). -/

namespace Sys2Proof.Machine.Tests

/-! ## Helpers -/

/-- The frame F0 of 95_test_vectors.md, payload empty. -/
def f0 : Bytes := [0xAA, 0x55, 0x56, 0x02, 0xB3, 0xB8]

/-- The frame F1, payload `60 00`. -/
def f1 : Bytes := [0xAA, 0x55, 0x56, 0x04, 0x60, 0x00, 0xD4, 0x07]

/-- F1 with bit 0 of its last checksum byte flipped. -/
def f1x : Bytes := [0xAA, 0x55, 0x56, 0x04, 0x60, 0x00, 0xD4, 0x06]

/-- The frame F3, payload `61 01 02`. -/
def f3 : Bytes := [0xAA, 0x55, 0x56, 0x05, 0x61, 0x01, 0x02, 0xDE, 0x0E]

/-- A state with the default parameters. -/
def st (crc : Word) (acc : Bytes) : State := { State.reset with crcReg := crc, acc := acc }

/-- The default parameters with a finite capacity. -/
def capped (cap : Nat) : Params := { Params.default with accCap := some cap }

/-- The parameters under which a length below 2 is a fault. -/
def faulting : Params := { Params.default with lenLt2 := .fault }

/-- What a step leaves of the block, and its last response; none where it does not go on. -/
def seen : StepOutcome → Option (Word × Bytes × Option Response)
  | .next t => some (t.crcReg, t.acc, t.responses.getLast?)
  | _ => none

/-- The block and the response after one invocation of an item, from a state. -/
def invoke (item : Item) (s : State) : Option (Word × Bytes × Option Response) :=
  seen (step { s with pending := [.invoke item] })

/-- Why an item is no instruction. -/
def rejectOf (item : Item) : Option Reject :=
  match decode item with
  | .ok _ => none
  | .error why => some why

/-! ## Well-formedness: each check refuses a term -/

theorem test_wf_encode_too_long (c1 c2 b : Byte) :
    (Instr.encode c1 c2 (List.replicate 32768 b)).wf Params.default = false := by
  rw [Instr.wf, payloadFits, List.length_replicate]; decide

theorem test_wf_inbound_first_marker_byte : (Instr.frameInShort 0xAB 0x55 0x56 2 [0, 0]).wf Params.default = false := by decide
theorem test_wf_inbound_second_marker_byte : (Instr.frameInExt 0xAA 0x54 0x56 2 [0, 0]).wf Params.default = false := by decide
theorem test_wf_inbound_no_room_for_checksum : (Instr.frameInShort 0xAA 0x55 0x56 1 [0]).wf Params.default = false := by decide
theorem test_wf_inbound_byte_count : (Instr.frameInExt 0xAA 0x55 0x56 3 [0, 0]).wf Params.default = false := by decide
theorem test_wf_outbound_marker : (Instr.frameOutShort 0xC9 0x36 0xB8 0x48 0 0 1 [7]).wf Params.default = false := by decide
theorem test_wf_outbound_byte_count : (Instr.frameOutShort 0xC9 0x36 0xB8 0x47 0 0 2 [7]).wf Params.default = false := by decide
theorem test_wf_outbound_extended_form_of_short_length :
    (Instr.frameOutExt 0xC9 0x36 0xB8 0x47 0 0 127 (List.replicate 127 0)).wf Params.default = false := by decide +kernel
theorem test_wf_non_canonical_inbound_is_well_formed : (Instr.frameInExt 0xAA 0x55 0x56 2 [0, 0]).wf Params.default = true := by decide

/-! ## Decoding: select codes 0 to 8 of 30_encoding.md R75, wire words of R61 to R63 -/

theorem test_decode_select_codes :
    (List.range 16).map (decodeTableWord 8) =
      [some .nop, some (.crcInit 0), some (.crcUpdate 0), some .crcRead, some (.crcCompute [] 0), some (.encode 0 0 []),
        some (.decode []), some (.feed []), some .rxClear, none, none, none, none, none, none, none] := by decide

/-- Markers, `hc` 0x56, then `0 LLLLLLL` with L = 4, and four bytes that follow. -/
theorem test_decode_frame_in_short : decodeTableWord 32 0b10101010_01010101_01010110_00000100 =
    some (.frameInShort 0xAA 0x55 0x56 4 [0, 0, 0, 0]) := by decide
/-- The same with `1 LLLLLLL LLLLLLLL`, L = 0x0103. -/
theorem test_decode_frame_in_ext : decodeTableWord 40 0b10101010_01010101_01010110_10000001_00000011 =
    some (.frameInExt 0xAA 0x55 0x56 0x103 (List.replicate 0x103 0)) := by decide +kernel
/-- Four marker bytes, `cmd1` 0x12, `cmd2` 0x34, `0 nnnnnnn` with n = 2. -/
theorem test_decode_frame_out_short : decodeTableWord 56 0xC936B847_12_34_02 =
    some (.frameOutShort 0xC9 0x36 0xB8 0x47 0x12 0x34 2 [0, 0]) := by decide
/-- The same with n = 0x80 in the extended form. -/
theorem test_decode_frame_out_ext : decodeTableWord 64 0xC936B847_12_34_8080 =
    some (.frameOutExt 0xC9 0x36 0xB8 0x47 0x12 0x34 0x80 (List.replicate 0x80 0)) := by decide +kernel
theorem test_decode_len_short : decodeTableWord 8 0b0_1111111 = some (.lenShort 127) := by decide
theorem test_decode_len_ext : decodeTableWord 16 0b1_0010010_00110100 = some (.lenExt 0x1234) := by decide

/-- Reserved codes are told before operands (60_exceptions.md R195); operands of the wrong kind are rejected. -/
theorem test_decode_rejects :
    rejectOf (.command ⟨0xF, [.u8 0]⟩) = some .reservedSelectCode ∧
    rejectOf (.command ⟨0x1, [.u8 0]⟩) = some .operandShape ∧
    rejectOf (.wire .inbound [0xAA, 0x55, 0x56, 0x80]) = some (.noInboundHeader [0xAA, 0x55, 0x56, 0x80]) ∧
    rejectOf (.wire .outbound [0xC9, 0x36, 0xB8, 0x47, 0x12, 0x34]) = some .noOutboundHeader ∧
    rejectOf (.wire .lengthField [0x80]) = some .noLengthField := by decide

/-- The word placed for the fetch is the instruction the very next step runs: `RX_CLEAR` empties `acc`. -/
theorem test_with_fetch_word : seen (step ((st 0x31C3 [1, 2]).withFetchWord 8 0x8)) = some (0x31C3, [], some (.ok .none)) := by
  decide

/-! ## One step each, results from 95_test_vectors.md -/

/-- V117. -/
theorem test_nop : invoke (.command ⟨0, []⟩) (st 0x31C3 [0xAA, 0x55, 0x56]) =
    some (0x31C3, [0xAA, 0x55, 0x56], some (.ok .none)) := by decide
/-- P1, line 1, from another value; `acc` is not touched (40_crc.md R96). -/
theorem test_crc_init : invoke (.command ⟨1, [.u16 0x1234]⟩) (st 0x31C3 [1]) = some (0x1234, [1], some (.ok .none)) := by decide
/-- The third row of V1's step trace. -/
theorem test_crc_update : invoke (.command ⟨2, [.u8 0x33]⟩) (st 0x20B5 [1]) = some (0x9752, [1], some (.ok .none)) := by
  decide +kernel
/-- P1, line 14: the index is 0, so the register only shifts. -/
theorem test_crc_update_shift : invoke (.command ⟨2, [.u8 0x31]⟩) (st 0x31C3 []) = some (0xC300, [], some (.ok .none)) := by
  decide +kernel
/-- V118. -/
theorem test_crc_read : invoke (.command ⟨3, []⟩) (st 0x31C3 [1]) = some (0x31C3, [1], some (.ok (.value 0x31C3))) := by decide
/-- V1, the source's check value, beside a `crc_reg` that is not used. -/
theorem test_crc_compute_check_value :
    invoke (.command ⟨4, [.bytes [0x31, 0x32, 0x33, 0x34, 0x35, 0x36, 0x37, 0x38, 0x39], .u16 0]⟩) (st 0x2672 []) =
      some (0x2672, [], some (.ok (.value 0x31C3))) := by decide +kernel
/-- V17: the seed is an argument. -/
theorem test_crc_compute_seed :
    invoke (.command ⟨4, [.bytes [0x31, 0x32, 0x33, 0x34, 0x35, 0x36, 0x37, 0x38, 0x39], .u16 0xFFFF]⟩) (st 0 []) =
      some (0, [], some (.ok (.value 0x29B1))) := by decide +kernel
/-- P2, line 5. -/
theorem test_encode : invoke (.command ⟨5, [.u8 0x12, .u8 0x34, .bytes [0xDE, 0xAD, 0xBE, 0xEF]]⟩) (st 1 [2]) =
    some (1, [2], some (.ok (.frame
      [0xC9, 0x36, 0xB8, 0x47, 0x12, 0x34, 0x04, 0xDE, 0xAD, 0xBE, 0xEF, 0x09, 0xFF]))) := by decide +kernel
/-- F1, as in V119. -/
theorem test_decode_valid : invoke (.command ⟨6, [.bytes f1]⟩) (st 0x2672 [2]) =
    some (0x2672, [2], some (.ok (.decoded (.valid 4 8 [0x60, 0x00])))) := by decide +kernel
/-- V74: the length lowered by one gives a checksum mismatch. -/
theorem test_decode_invalid : invoke (.command ⟨6, [.bytes [0xAA, 0x55, 0x56, 0x03, 0x60, 0x00, 0xD4, 0x07]]⟩) (st 0 []) =
    some (0, [], some (.ok (.decoded .invalid))) := by decide +kernel
/-- V54, the source's S5. -/
theorem test_feed_resynchronises : invoke (.command ⟨7, [.bytes (f1x ++ f3)]⟩) (st 7 []) =
    some (7, [], some (.ok (.emitted [[0x61, 0x01, 0x02]]))) := by decide +kernel
/-- V107: a frame inside the payload of a failed one is emitted, and two bytes are kept. -/
theorem test_feed_frame_in_payload :
    invoke (.command ⟨7, [.bytes
      [0xAA, 0x55, 0x56, 0x09, 0x60, 0xAA, 0x55, 0x56, 0x02, 0xB3, 0xB8, 0xB9, 0xAC]]⟩) (st 7 []) =
      some (7, [0xB9, 0xAC], some (.ok (.emitted [[]]))) := by decide +kernel
/-- V116. -/
theorem test_rx_clear : invoke (.command ⟨8, []⟩) (st 0x31C3 [0xAA, 0x55, 0x56]) = some (0x31C3, [], some (.ok .none)) := by
  decide
/-- V111. -/
theorem test_reserved_code : invoke (.command ⟨9, [.u8 1, .u8 2]⟩) (st 0x31C3 [1]) = some (0x31C3, [1], some .refusedBadOp) := by
  decide
/-- V115: reset. -/
theorem test_reset_input : seen (step { st 0x31C3 [0xAA, 0x55, 0x56] with pending := [.reset] }) = some (0, [], none) := by
  decide
/-- V30, the frame's bytes presented as an inbound wire item. -/
theorem test_frame_in_short : invoke (.wire .inbound f0) (st 5 [6]) =
    some (5, [6], some (.ok (.decoded (.valid 4 6 [])))) := by decide +kernel
/-- V80: the extended form of length 2, a wrong checksum. -/
theorem test_frame_in_ext : invoke (.wire .inbound [0xAA, 0x55, 0x56, 0x80, 0x02, 0x00, 0x00]) (st 5 [6]) =
    some (5, [6], some (.ok (.decoded .invalid))) := by decide +kernel
/-- V76: four bytes with the extended flag are no header yet. -/
theorem test_frame_in_too_short : invoke (.wire .inbound [0xAA, 0x55, 0x56, 0x80]) (st 5 [6]) =
    some (5, [6], some (.ok (.decoded .incomplete))) := by decide
/-- V40's frame, completed with its checksum. -/
theorem test_frame_out_short : invoke (.wire .outbound [0xC9, 0x36, 0xB8, 0x47, 0x56, 0x60, 0x00]) (st 5 [6]) =
    some (5, [6], some (.ok (.frame [0xC9, 0x36, 0xB8, 0x47, 0x56, 0x60, 0x00, 0x0B, 0x52]))) := by decide +kernel
/-- S2, length 128: the last two bytes of the frame. -/
theorem test_frame_out_ext :
    (match exec (.frameOutExt 0xC9 0x36 0xB8 0x47 0x56 0x60 128 ((List.range 128).map (BitVec.ofNat 8))) (st 5 [6]) with
      | .next t => t.responses.map (fun r => match r with | .ok (.frame f) => f.drop 136 | _ => [])
      | _ => []) = [[0x76, 0x43]] := by decide +kernel
/-- V22 and V24. -/
theorem test_len_short : invoke (.wire .lengthField [0x7F]) (st 5 [6]) = some (5, [6], some (.ok (.lengthValue 127 1))) := by
  decide
theorem test_len_ext : invoke (.wire .lengthField [0x80, 0xC8]) (st 5 [6]) = some (5, [6], some (.ok (.lengthValue 200 2))) := by
  decide

/-- The payload of P6 read by the StateDecoder: four axes 0x7F, battery 100. -/
theorem test_state_report :
    (parseState .bigEndian false [0x60, 0x7F, 0x7F, 0x7F, 0x7F, 0, 0, 0, 0, 0, 0, 0x64, 0, 0]).map
      (fun c => (c.leftX, c.rightY, c.lUp, c.battery)) = some (0x7F, 0x7F, false, 0x64) := by decide

/-! ## Witnesses: states and operands that meet the hypotheses of the obligations -/

theorem marker_at (a : Bytes) (i : Nat) (x y : Byte) (t : Bytes) (h : a.drop i = x :: y :: t)
    (hx : x = Params.default.im0) (hy : y = Params.default.im1) : MarkerAt Params.default a i := by
  subst hx hy
  have l := congrArg List.length h
  simp only [List.length_drop, List.length_cons] at l
  refine ⟨by omega, ?_, ?_⟩
  · rw [← Nat.add_zero i, ← List.getElem?_drop, h]; rfl
  · rw [← List.getElem?_drop, h]; rfl

/-- Two bytes of equal length; two states of the streamed checksum need no hypothesis. -/
theorem witness_ChecksumIsLinear : ([0x01#8, 0x80#8] : Bytes).length = ([0xFF#8, 0x00#8] : Bytes).length := by decide

/-- The ends of both forms, and of the non-canonical range. -/
theorem witness_LengthFieldRoundTrips :
    (0 ≤ 32767 ∧ 127 ≤ 32767 ∧ 128 ≤ 32767 ∧ 32767 ≤ 32767) ∧ (0 < 128 ∧ 127 < 128) := by decide

/-- The empty payload and the longest one. -/
theorem witness_EncodeReturnsFrame :
    ([] : Bytes).length ≤ 32767 ∧ (List.replicate 32767 0#8).length ≤ 32767 ∧
    ∃ body, body = [0xC9#8, 0x36#8, 0xB8#8, 0x47#8, 0x12#8, 0x34#8] ++ lenEnc 0 ++ [] :=
  ⟨by decide, by rw [List.length_replicate], _, rfl⟩

/-- V110: the shortest refused payload, for the refusal clause of `EncodeReturnsFrame` too. -/
theorem witness_EncodeRefusesLongPayload : 32767 < (List.replicate 32768 0#8).length := by rw [List.length_replicate]; decide

/-- The last short form, the first extended form, the longest payload; and two equal frames. -/
theorem witness_EncodedFrameShape :
    (List.replicate 127 0#8).length < 128 ∧ 128 ≤ (List.replicate 128 0#8).length ∧
    (List.replicate 32767 0#8).length ≤ 32767 ∧
    frameEncode Params.default 1 2 [3] = frameEncode Params.default 1 2 [3] :=
  ⟨by rw [List.length_replicate]; decide, by rw [List.length_replicate], by rw [List.length_replicate], rfl⟩

theorem witness_EncodedFrameResidueIsZero : (List.replicate 32767 0#8).length ≤ 32767 := by rw [List.length_replicate]

theorem witness_OutboundRowsAppendChecksum :
    (∃ body, body = [0xC9#8, 0x36#8, 0xB8#8, 0x47#8, 0x12#8, 0x34#8] ++ shortField 1 ++ [7#8]) ∧
    (∃ body, body = [0xC9#8, 0x36#8, 0xB8#8, 0x47#8, 0x12#8, 0x34#8] ++ extField 1 ++ [7#8]) := ⟨⟨_, rfl⟩, ⟨_, rfl⟩⟩

/-- The longest payload of the short row and the shortest of the extended row. -/
theorem witness_OutboundRowsAreEncodedFrames :
    (Instr.frameOutShort 0xC9 0x36 0xB8 0x47 1 2 127 (List.replicate 127 0)).wf (st 0 []).params = true ∧
    (Instr.frameOutExt 0xC9 0x36 0xB8 0x47 1 2 128 (List.replicate 128 0)).wf (st 0 []).params = true := by decide +kernel

/-- The reset state has the normative length policy: `DecodeReturnsResult`, `InboundRowsAreDecoded`,
`EveryOperationReturns`. -/
theorem witness_Normative : State.reset.Normative := rfl

/-- Each cause of 60_exceptions.md R191 at the edge of its condition (V76 to V80, F1x, F0). -/
theorem witness_DecodeFollowsCauseOrder : Params.default.lenLt2 = .invalid ∧
    frameCause Params.default [0xAA, 0x55, 0x56] = .short4 ∧
    frameCause Params.default [0xAA, 0x56, 0x56, 0x80] = .marker ∧
    frameCause Params.default [0xAA, 0x55, 0x56, 0x80] = .short5 ∧
    frameCause Params.default [0xAA, 0x55, 0x56, 0x80, 0x01] = .shortTotal ∧
    frameCause Params.default [0xAA, 0x55, 0x56, 0x80, 0x01, 0x00] = .length ∧
    frameCause Params.default f1x = .checksum ∧ frameCause Params.default f0 = .none := by decide +kernel

/-- A valid and an invalid buffer, neither incomplete. -/
theorem witness_TrailingBytesAreIgnored :
    frameDecode Params.default f1 = .ok (.valid 4 8 [0x60, 0x00]) ∧ frameDecode Params.default f1x = .ok .invalid ∧
    FrameResult.valid 4 8 [0x60, 0x00] ≠ .incomplete ∧ FrameResult.invalid ≠ .incomplete :=
  ⟨by rfl, by rfl, by decide, by decide⟩

/-- Both header sizes at their boundary, the longest payload, a proper piece of a frame. -/
theorem witness_DecodeInvertsMkInbound :
    (List.replicate 125 0#8).length ≤ 125 ∧ ¬ (List.replicate 126 0#8).length ≤ 125 ∧
    (List.replicate 32765 0#8).length ≤ 32765 ∧ 7 < (mkInbound Params.default 0x56 [0x60, 0x00]).length :=
  ⟨by rw [List.length_replicate], by rw [List.length_replicate]; decide, by rw [List.length_replicate], by decide +kernel⟩

/-- F1 and the flip that makes it F1x. -/
theorem witness_ChangedChecksumIsInvalid :
    frameDecode Params.default ([0xAA, 0x55, 0x56, 0x04, 0x60, 0x00] ++ [0xD4, 0x07] ++ []) =
      .ok (.valid 4 (([0xAA, 0x55, 0x56, 0x04, 0x60, 0x00] : Bytes).length + 2) [0x60, 0x00]) ∧
    ((0xD4#8, 0x06#8) : Byte × Byte) ≠ (0xD4#8, 0x07#8) := ⟨by rfl, by decide⟩

theorem witness_EncodedFrameIsNotInbound :
    (List.replicate 32767 0#8).length ≤ 32767 ∧ Params.default.outMarker.take 2 ≠ Params.default.inMarker :=
  ⟨by rw [List.length_replicate], by decide⟩

theorem witness_LengthBelowTwoIsInvalid : Params.default.lenLt2 = .invalid := rfl

/-- A fault does arise, and only the parameter brings it. -/
theorem witness_FaultsOnlyByLengthPolicy : (State.resetWith faulting).params.lenLt2 = .fault ∧
    exec (.decode [0xAA, 0x55, 0x56, 0x00]) (State.resetWith faulting) = .fault .lengthBelowTwo := ⟨rfl, by rfl⟩

/-- Smallest and largest length values of both rows, the non-canonical form of 2 among them. -/
theorem witness_WholeInboundRowsGiveTheirPayload :
    (2#7).toNat = ([] : Bytes).length + 2 ∧ (127#7).toNat = (List.replicate 125 0#8).length + 2 ∧
    (2#15).toNat = ([] : Bytes).length + 2 ∧ (32767#15).toNat = (List.replicate 32765 0#8).length + 2 ∧
    (∃ h, h = [(st 0 []).params.im0, (st 0 []).params.im1, 0x56#8] ++ shortField 127) ∧
    (∃ h, h = [(st 0 []).params.im0, (st 0 []).params.im1, 0x56#8] ++ extField 32767) :=
  ⟨by decide, by rw [List.length_replicate]; decide, by decide, by rw [List.length_replicate]; decide, ⟨_, rfl⟩, ⟨_, rfl⟩⟩

/-- V114 exactly at the capacity, V113 one byte past it. -/
theorem witness_FeedReturnsEmitted :
    (State.resetWith (capped 8)).Normative ∧ (State.resetWith (capped 8)).params.accCap = some 8 ∧
    ([0xAA#8, 0x55#8, 0x56#8, 0x04#8, 0x60#8] : Bytes).length + ([0x00#8, 0xD4#8, 0x07#8] : Bytes).length ≤ 8 ∧
    8 < ([0xAA#8, 0x55#8, 0x56#8, 0x04#8, 0x60#8] : Bytes).length + ([0x00#8, 0xD4#8, 0x07#8, 0x00#8] : Bytes).length :=
  ⟨rfl, rfl, by decide, by decide⟩

/-- V89 and V90. -/
theorem witness_ShortInputKeptNoiseCleared :
    ([] ++ [0x01, 0x02, 0x03] : Bytes).length < 4 ∧ 4 ≤ ([] ++ [0x01, 0x02, 0x03, 0x04] : Bytes).length ∧
    ∀ i, ¬ MarkerAt Params.default ([] ++ [0x01, 0x02, 0x03, 0x04]) i := by
  refine ⟨by decide, by decide, fun i h => ?_⟩
  obtain ⟨l, x, -⟩ := h
  rcases i with _ | _ | _ | _ | i <;> simp [Params.default] at l x

/-- V92: the first marker stands at offset 2, with nothing behind it. -/
theorem witness_NoiseBeforeMarkerDropped :
    4 ≤ ([] ++ [0x09, 0x09, 0xAA, 0x55] : Bytes).length ∧ MarkerAt Params.default ([] ++ [0x09, 0x09, 0xAA, 0x55]) 2 ∧
    ∀ j, j < 2 → ¬ MarkerAt Params.default ([] ++ [0x09, 0x09, 0xAA, 0x55]) j := by
  refine ⟨by decide, marker_at _ 2 0xAA 0x55 [] rfl rfl rfl, fun j hj h => ?_⟩
  obtain ⟨-, x, -⟩ := h
  rcases j with _ | _ | j
  · simp [Params.default] at x
  · simp [Params.default] at x
  · omega

/-- One buffer for each arm: V88's first chunk, F1x, F1. -/
theorem witness_CandidateArms :
    (4 ≤ [0xAA, 0x55, 0x56, 0x04, 0x60].length ∧ MarkerAt Params.default [0xAA, 0x55, 0x56, 0x04, 0x60] 0 ∧
      frameDecode Params.default [0xAA, 0x55, 0x56, 0x04, 0x60] = .ok .incomplete) ∧
    (4 ≤ f1x.length ∧ MarkerAt Params.default f1x 0 ∧ frameDecode Params.default f1x = .ok .invalid) ∧
    (4 ≤ f1.length ∧ MarkerAt Params.default f1 0 ∧ frameDecode Params.default f1 = .ok (.valid 4 8 [0x60, 0x00])) :=
  ⟨⟨by decide, marker_at _ 0 _ _ _ rfl rfl rfl, by rfl⟩, ⟨by decide, marker_at _ 0 _ _ _ rfl rfl rfl, by rfl⟩,
    ⟨by decide, marker_at _ 0 _ _ _ rfl rfl rfl, by rfl⟩⟩

/-- All three stops occur: V89, V90, V88. -/
theorem witness_FeedStopsSettled :
    reassemble Params.default [] [0x01, 0x02, 0x03] = .ok ⟨[0x01, 0x02, 0x03], [], .tooShort⟩ ∧
    reassemble Params.default [] [0x01, 0x02, 0x03, 0x04] = .ok ⟨[], [], .cleared⟩ ∧
    reassemble Params.default [] [0xAA, 0x55, 0x56, 0x04, 0x60] = .ok ⟨[0xAA, 0x55, 0x56, 0x04, 0x60], [], .waiting⟩ :=
  ⟨by rfl, by rfl, by rfl⟩

/-- Both cases of the invariant, at 3 bytes and at a waiting candidate. -/
theorem witness_Inv : (st 0x31C3 [0x01, 0x02, 0x03]).Inv ∧ (st 0x31C3 [0xAA, 0x55, 0x56, 0x04, 0x60]).Inv :=
  ⟨⟨.inl (by decide), trivial⟩, ⟨.inr ⟨by decide, by decide, by rfl⟩, trivial⟩⟩

/-- F1 under a capacity that it just fills. -/
theorem witness_FrameFedByteByByte :
    (State.resetWith (capped 8)).acc = [] ∧ f1 = mkInbound (capped 8) 0x56 [0x60, 0x00] ∧
    ∀ cap, (State.resetWith (capped 8)).params.accCap = some cap → f1.length ≤ cap :=
  ⟨rfl, by decide +kernel, fun cap h => by cases h; decide⟩

/-- A garbage byte that is not `IM0`, and one that is. -/
theorem witness_GarbageByteThenFrame :
    ¬ (0x00#8 = Params.default.im0 ∧ Params.default.im0 = Params.default.im1) ∧
    ¬ (0xAA#8 = Params.default.im0 ∧ Params.default.im0 = Params.default.im1) := by decide

/-- V54: F1x, with no marker before F3. -/
theorem witness_CorruptFrameThenGoodFrame :
    ([0xAA, 0x55, 0x56, 0x04, 0x60, 0x00] : Bytes) = Params.default.inMarker ++ [0x56] ++ lenEnc (2 + 2) ++ [0x60, 0x00] ∧
    ([0xD4, 0x06] : Bytes) ≠ be16 (crc16 [0xAA, 0x55, 0x56, 0x04, 0x60, 0x00] 0) ∧
    ∀ i, 2 ≤ i → i < 6 + 2 → ¬ MarkerAt Params.default
      ([0xAA, 0x55, 0x56, 0x04, 0x60, 0x00] ++ [0xD4, 0x06] ++ mkInbound Params.default 0x56 [0x61, 0x01, 0x02]) i := by
  refine ⟨by decide, by decide +kernel, fun i h1 h2 h => ?_⟩
  obtain ⟨-, x, -⟩ := h
  rw [List.getElem?_append_left (by simpa using h2)] at x
  rcases i with _ | _ | _ | _ | _ | _ | _ | _ | i
  all_goals first | omega | simp [Params.default] at x

/-- V93's first chunk does not end in a clear. -/
theorem witness_ChunkBoundaryHarmlessUnlessCleared :
    reassemble Params.default [] [0x00, 0x00, 0xAA] = .ok ⟨[0x00, 0x00, 0xAA], [], .tooShort⟩ ∧ Stop.tooShort ≠ .cleared :=
  ⟨by rfl, by decide⟩

/-- A step from a state with the invariant goes on; the state after it has a non-empty `acc`. -/
theorem witness_StepKeepsInvariant : ∃ t, (st 1 [0x01]).Inv ∧
    step { st 1 [0x01] with pending := [.invoke (.command ⟨7, [.bytes [0x02]]⟩)] } = .next t ∧ t.acc = [0x01, 0x02] ∧
    t.params = Params.default := ⟨_, ⟨.inl (by decide), trivial⟩, by rfl, by rfl, by rfl⟩

/-- `RX_CLEAR` goes on and is neither writer of `crc_reg`; `CRC_INIT` goes on and is neither writer of `acc`. -/
theorem witness_OnlyWriters :
    (∃ t, exec .rxClear (st 1 [2]) = .next t) ∧ ((∀ seed, Instr.rxClear ≠ .crcInit seed) ∧ ∀ b, Instr.rxClear ≠ .crcUpdate b) ∧
    (∃ t, exec (.crcInit 5) (st 1 [2]) = .next t) ∧ ((∀ chunk, Instr.crcInit 5 ≠ .feed chunk) ∧ Instr.crcInit 5 ≠ .rxClear) :=
  ⟨⟨_, rfl⟩, ⟨by simp, by simp⟩, ⟨_, rfl⟩, ⟨by simp, by simp⟩⟩

/-- Two different states with the same block, on which `CRC_READ` goes on, and one on which `DECODE` faults. -/
theorem witness_NoMemoryOfEarlierCalls :
    (st 1 [2]).SameBlock { st 1 [2] with responses := [.refusedBadOp], pending := [.reset] } ∧
    (∃ t, exec .crcRead (st 1 [2]) = .next t) ∧
    ∃ f, exec (.decode [0xAA, 0x55, 0x56, 0x00]) (State.resetWith faulting) = .fault f := by
  exact ⟨⟨rfl, rfl, rfl⟩, ⟨_, rfl⟩, ⟨_, by rfl⟩⟩

/-- The smallest and the largest reserved code. -/
theorem witness_ReservedCodesAreRefused : 9 ≤ (0x9#4).toNat ∧ 9 ≤ (0xF#4).toNat := by decide

/-- Items that decode: a command and a wire item. -/
theorem witness_ItemsDecode :
    decode (.command ⟨2, [.u8 0x33]⟩) = .ok (.crcUpdate 0x33) ∧ decode (.wire .lengthField [0x80, 0xC8]) = .ok (.lenExt 200) :=
  ⟨by rfl, by rfl⟩

theorem witness_Idle : State.reset.pending = [] := rfl

/-- P6, line 5, from an empty `acc`: the step's `FEED` of F2 adds one controller state, which is also the reply's. -/
theorem witness_ControllerStatesComeFromValidFrames :
    (match step { st 0 [] with pending := [.invoke (.command ⟨7, [.bytes
        [0xAA, 0x55, 0x56, 0x10, 0x60, 0x7F, 0x7F, 0x7F, 0x7F, 0, 0, 0, 0, 0, 0, 0x64, 0, 0, 0x78, 0xD7]]⟩)] } with
      | .next t => some ((streamedStates .bigEndian false t.responses).map (fun c => (c.leftX, c.battery)),
          (replyState .bigEndian false t.responses).map (fun c => (c.leftX, c.battery)))
      | _ => none) = some ([(0x7F, 0x64)], some (0x7F, 0x64)) := by decide +kernel

/-- V56: the frame F3 has another tag, so its emitted payload gives no state. -/
theorem test_untagged_payload_gives_no_state :
    streamedStates .bigEndian false [.ok (.emitted [[0x61, 0x01, 0x02]])] = [] := by decide

/-- A payload of 14 bytes with the tag, and one of 13 (95_test_vectors.md S6). -/
theorem witness_StateReportParsedWhole :
    (14 ≤ (0x60#8 :: List.replicate 13 0#8).length ∧ byteAt (0x60#8 :: List.replicate 13 0#8) 0 = 0x60#8) ∧
    ¬ 14 ≤ (0x60#8 :: List.replicate 12 0#8).length := by decide

end Sys2Proof.Machine.Tests
end

section
/-! PROOFS. Scope of a step (00_scope.md R8): an input that decodes is run, with that input taken. -/

namespace Sys2Proof.Machine

/-- The fetch of an invocation that decodes, the converse of `fetch_run`. -/
theorem fetch_invoke_of_decode {item : Item} {i : Instr} (s : State) (rest : List Event) (h : decode item = .ok i) :
    fetch { s with pending := .invoke item :: rest } = .run i { s with pending := rest } := by
  simp only [fetch, h]

/-- A fetched instruction is executed on the state that the fetch left. -/
theorem step_of_fetch_run {s s' : State} {i : Instr} (h : fetch s = .run i s') : step s = exec i s' := by
  rw [step, h]

/-- Settles O54: the fetch gives the decoded instruction and the state with the input taken, and the step executes it. -/
theorem stepRunsDecodedInstruction : Obligations.StepRunsDecodedInstruction :=
  fun s _ rest _ h => step_of_fetch_run (fetch_invoke_of_decode s rest h)

end Sys2Proof.Machine
end

section
/-! PROOFS. The block's state (10_state.md): what an operation may leave in `crc_reg` and `acc`, that it reads nothing
but the block, and the invariant between operations. -/

namespace Sys2Proof.Machine

/-! ## What an operation leaves, and what it depends on -/

/-- The same block with another history: other inputs to come and other responses handed back. -/
def State.withHistory (s : State) (pending : List Event) (responses : List Response) : State :=
  { s with pending := pending, responses := responses }

section
variable (s : State) (pending : List Event) (responses : List Response)

@[simp] theorem State.withHistory_params : (s.withHistory pending responses).params = s.params := rfl
@[simp] theorem State.withHistory_acc : (s.withHistory pending responses).acc = s.acc := rfl

@[simp] theorem overflows_withHistory (chunk : Bytes) :
    overflows (s.withHistory pending responses) chunk = overflows s chunk := rfl

end

/-- States with the same block differ in their history alone. -/
theorem State.SameBlock.eq_withHistory {s u : State} (h : s.SameBlock u) : u = s.withHistory u.pending u.responses := by
  obtain ⟨params, crcReg, acc⟩ := h
  rw [State.withHistory, params, crcReg, acc]

/-- `crc_reg` after an operation: what it was, or what one of its two writers left (10_state.md R23). -/
def CrcLeft (i : Instr) (s : State) (crcReg : Word) : Prop :=
  crcReg = s.crcReg ∨ (∃ seed, i = .crcInit seed) ∨ ∃ b, i = .crcUpdate b

/-- `acc` after an operation: what it was, emptied by `RX_CLEAR`, or what the loop of a `FEED` within capacity left
(10_state.md R24). -/
def AccLeft (i : Instr) (s : State) (acc : Bytes) : Prop :=
  acc = s.acc ∨ (i = .rxClear ∧ acc = []) ∨
    ∃ chunk result, i = .feed chunk ∧ overflows s chunk = false ∧ reassemble s.params s.acc chunk = .ok result ∧
      acc = result.acc

/-- `op`, as the meaning of `i`, goes one way on the block of `s` under every history (10_state.md R28): it returns one
response and leaves one block, or it faults, which takes the alternative length policy (93 I1). -/
def AnswersFromBlock (i : Instr) (s : State) (op : State → StepOutcome) : Prop :=
  (∃ crcReg acc r, CrcLeft i s crcReg ∧ AccLeft i s acc ∧ ∀ pending responses,
    op (s.withHistory pending responses) =
      .next (State.withHistory { s with crcReg := crcReg, acc := acc } pending (responses ++ [r]))) ∨
  (s.params.lenLt2 = .fault ∧ ∃ f, ∀ pending responses, op (s.withHistory pending responses) = .fault f)

section
variable {i : Instr} {s : State} {op : State → StepOutcome}

/-- An operation that only responds. -/
theorem AnswersFromBlock.respond (r : Response)
    (h : ∀ pending responses, op (s.withHistory pending responses) = .next ((s.withHistory pending responses).respond r)) :
    AnswersFromBlock i s op :=
  .inl ⟨s.crcReg, s.acc, r, .inl rfl, .inl rfl, h⟩

/-- An operation that writes `crc_reg`. -/
theorem AnswersFromBlock.setCrc (v : Word) (r : Response) (w : (∃ seed, i = .crcInit seed) ∨ ∃ b, i = .crcUpdate b)
    (h : ∀ pending responses, op (s.withHistory pending responses) =
      .next (((s.withHistory pending responses).setCrc v).respond r)) : AnswersFromBlock i s op :=
  .inl ⟨v, s.acc, r, .inr w, .inl rfl, h⟩

/-- An operation that writes `acc`. -/
theorem AnswersFromBlock.setAcc (a : Bytes) (r : Response) (w : AccLeft i s a)
    (h : ∀ pending responses, op (s.withHistory pending responses) =
      .next (((s.withHistory pending responses).setAcc a).respond r)) : AnswersFromBlock i s op :=
  .inl ⟨s.crcReg, a, r, .inl rfl, w, h⟩

end

/-- An answer with a decode result reads the parameters only. -/
theorem answerDecode_answersFromBlock (i : Instr) (s : State) (buffer : Bytes) :
    AnswersFromBlock i s (answerDecode buffer) := by
  cases d : frameDecode s.params buffer with
  | ok r => exact .respond (.ok (.decoded r)) fun _ _ => by simp [answerDecode, d]
  | error f => exact .inr ⟨frameDecode_error d, f, fun _ _ => by simp [answerDecode, d]⟩

/-- The length test of `ENCODE` reads its operands only. -/
theorem execEncode_answersFromBlock (i : Instr) (s : State) (cmd1 cmd2 : Byte) (payload : Bytes) :
    AnswersFromBlock i s (execEncode cmd1 cmd2 payload) := by
  by_cases h : payload.length > Config.lenMax
  · exact .respond .refusedTooLong fun _ _ => by simp [execEncode, h]
  · exact .respond (.ok (.frame (frameEncode s.params cmd1 cmd2 payload))) fun _ _ => by simp [execEncode, h]

/-- The capacity test and the loop of `FEED` read the parameters and `acc` only. -/
theorem execFeed_answersFromBlock (s : State) (chunk : Bytes) :
    AnswersFromBlock (.feed chunk) s (execFeed chunk) := by
  cases o : overflows s chunk with
  | true => exact .respond .refusedOverflow fun _ _ => by simp [execFeed, o]
  | false =>
    cases d : reassemble s.params s.acc chunk with
    | ok result =>
      exact .setAcc result.acc (.ok (.emitted result.emitted)) (.inr (.inr ⟨chunk, result, rfl, o, d, rfl⟩))
        fun _ _ => by simp [execFeed, o, d]
    | error f => exact .inr ⟨feedLoop_error d, f, fun _ _ => by simp [execFeed, o, d]⟩

/-- Every way an operation can go, the same under every history. -/
theorem exec_answersFromBlock (i : Instr) (s : State) : AnswersFromBlock i s (exec i) := by
  cases i with
  | nop => exact .respond (.ok .none) fun _ _ => rfl
  | crcInit seed => exact .setCrc seed (.ok .none) (.inl ⟨seed, rfl⟩) fun _ _ => rfl
  | crcUpdate b => exact .setCrc (crcStep s.crcReg b) (.ok .none) (.inr ⟨b, rfl⟩) fun _ _ => rfl
  | crcRead => exact .respond (.ok (.value s.crcReg)) fun _ _ => rfl
  | crcCompute data initial => exact .respond (.ok (.value (crc16 data initial))) fun _ _ => rfl
  | encode cmd1 cmd2 payload => exact execEncode_answersFromBlock _ s cmd1 cmd2 payload
  | decode buffer => exact answerDecode_answersFromBlock _ s buffer
  | feed chunk => exact execFeed_answersFromBlock s chunk
  | rxClear => exact .setAcc [] (.ok .none) (.inr (.inl ⟨rfl, rfl⟩)) fun _ _ => rfl
  | frameInShort im0 im1 hc len rest => exact answerDecode_answersFromBlock _ s _
  | frameInExt im0 im1 hc len rest => exact answerDecode_answersFromBlock _ s _
  | frameOutShort om0 om1 om2 om3 cmd1 cmd2 len payload => exact .respond _ fun _ _ => answerSealed_eq _ _
  | frameOutExt om0 om1 om2 om3 cmd1 cmd2 len payload => exact .respond _ fun _ _ => answerSealed_eq _ _
  | lenShort v => exact .respond _ fun _ _ => answerLength_eq _ _
  | lenExt v => exact .respond _ fun _ _ => answerLength_eq _ _

/-- Every way an operation can give a next state: the parameters and the inputs to come stay. -/
theorem exec_next {i : Instr} {s t : State} (h : exec i s = .next t) :
    ∃ crcReg acc r, CrcLeft i s crcReg ∧ AccLeft i s acc ∧
      t = { s with crcReg := crcReg, acc := acc, responses := s.responses ++ [r] } := by
  obtain ⟨crcReg, acc, r, hc, ha, go⟩ | ⟨-, f, go⟩ := exec_answersFromBlock i s
  · have e := h.symm.trans (go s.pending s.responses)
    cases e
    exact ⟨crcReg, acc, r, hc, ha, rfl⟩
  · have e := h.symm.trans (go s.pending s.responses)
    cases e

/-- Settles O52: by `exec_answersFromBlock` the operation goes the same way under both histories. -/
theorem noMemoryOfEarlierCalls : Obligations.NoMemoryOfEarlierCalls := by
  intro i s s' same
  rw [same.eq_withHistory]
  obtain ⟨crcReg, acc, r, -, -, go⟩ | ⟨-, f, go⟩ := exec_answersFromBlock i s
  · have run : exec i s = _ := go s.pending s.responses
    rw [run]
    refine ⟨?_, nofun, nofun⟩
    rintro t ⟨⟩
    exact ⟨_, r, go s'.pending s'.responses, ⟨rfl, rfl, rfl⟩, rfl, rfl⟩
  · have run : exec i s = _ := go s.pending s.responses
    rw [run, go s'.pending s'.responses]
    exact ⟨nofun, fun _ h => by cases h; rfl, nofun⟩

/-- Settles O48: what else can stand in `crc_reg` is a writer's (`CrcLeft`). -/
theorem onlyCrcPortWritesCrcReg : Obligations.OnlyCrcPortWritesCrcReg := by
  intro i s t h notInit notUpdate
  obtain ⟨crcReg, acc, r, kept | ⟨seed, e⟩ | ⟨b, e⟩, -, rfl⟩ := exec_next h
  · exact kept
  · exact absurd e (notInit seed)
  · exact absurd e (notUpdate b)

/-- Settles O49: what else can stand in `acc` is a writer's (`AccLeft`), and an equal accumulator reads equally. -/
theorem onlyStreamUnitWritesAcc : Obligations.OnlyStreamUnitWritesAcc := by
  intro i s t h notFeed notClear
  obtain ⟨crcReg, acc, r, -, kept | ⟨e, -⟩ | ⟨chunk, result, e, -⟩, rfl⟩ := exec_next h
  · exact State.memRead_congr kept
  · exact absurd e notClear
  · exact absurd e (notFeed chunk)

/-- Settles O50, by the four ways a step can give a next state. -/
theorem parametersAreNeverWritten : Obligations.ParametersAreNeverWritten := by
  intro s t h
  obtain ⟨-, rfl⟩ | ⟨rest, -, rfl⟩ | ⟨item, rest, i, -, -, e⟩ | ⟨item, rest, why, -, -, e⟩ := step_next h
  · rfl
  · rfl
  · obtain ⟨crcReg, acc, r, -, -, rfl⟩ := exec_next e
    rfl
  · obtain ⟨r, rfl⟩ := answerReject_next e
    rfl

/-! ## The invariant between operations -/

/-- The capacity bound in numbers (10_state.md R24). -/
theorem accWithinCap_iff (p : Params) (acc : Bytes) :
    accWithinCap p acc ↔ ∀ cap, p.accCap = some cap → acc.length ≤ cap := by
  unfold accWithinCap
  cases p.accCap <;> simp

/-- An empty accumulator meets both halves of the invariant. -/
theorem State.inv_of_acc_nil {s : State} (h : s.acc = []) : s.Inv := by
  rw [State.Inv, h, accWithinCap_iff]
  exact ⟨.inl (by simp), fun cap _ => Nat.zero_le cap⟩

/-- Settles O46: reset leaves the accumulator empty. -/
theorem resetMeetsInvariant : Obligations.ResetMeetsInvariant :=
  ⟨fun _ => State.inv_of_acc_nil rfl, State.inv_of_acc_nil rfl, fun _ => State.inv_of_acc_nil rfl⟩

/-- The scan finds the marker at offset 0 only where it stands. -/
theorem take_marker_of_findMarker_zero {p : Params} {a : Bytes} (h : findMarker p a = some 0) :
    a.take 2 = p.inMarker := by
  rcases a with - | ⟨x, - | ⟨y, rest⟩⟩
  · cases h
  · cases h
  · rw [findMarker] at h
    by_cases m : x = p.im0 ∧ y = p.im1
    · simp [Params.inMarker, m]
    · rw [if_neg m] at h
      cases e : findMarker p (y :: rest) <;> rw [e] at h <;> cases h

/-- What each of the three stops leaves (43_reassembler.md R150). -/
def StopSettled (p : Params) (r : Reassembly) : Prop :=
  match r.stop with
  | .tooShort => r.acc.length < 4
  | .cleared => r.acc = []
  | .waiting => r.acc.take 2 = p.inMarker ∧ frameDecode p r.acc = .ok .incomplete

/-- From whatever it starts, the loop with enough passes ends in a settled stop: each `goto` goes on with fewer bytes. -/
theorem feedLoop_stopSettled {p : Params} (fuel : Nat) :
    ∀ {label : Label} {acc : Bytes} {emitted : List Bytes} {r : Reassembly}, acc.length < fuel →
      feedLoop p fuel label acc emitted = .ok r → StopSettled p r := by
  induction fuel with
  | zero => intro label acc emitted r enough; omega
  | succ k ih =>
    intro label acc emitted r enough h
    obtain ⟨-, short, e⟩ | ⟨-, ⟨-, e⟩ | ⟨i, m, e⟩ | ⟨m, ⟨f, -, e⟩ | ⟨d, e⟩ | ⟨d, e⟩ | ⟨hs, total, payload, d, e⟩⟩⟩ :=
      feedLoop_succ p label acc emitted
    all_goals rw [e] at h
    · cases h; exact short
    · cases h; rfl
    · have := findMarker_lt m
      exact ih (by rw [List.length_drop]; omega) h
    · cases h
    · cases h; exact ⟨take_marker_of_findMarker_zero m, d⟩
    · have := frameDecode_invalid_length d
      exact ih (by rw [List.length_drop]; omega) h
    · have := frameDecode_valid_bounds d
      exact ih (by rw [List.length_drop]; omega) h

/-- A settled stop leaves a settled accumulator; a candidate that waits with fewer than 4 bytes is in case (a) of
10_state.md R31. -/
theorem StopSettled.accSettled {p : Params} {r : Reassembly} (h : StopSettled p r) : accSettled p r.acc := by
  obtain ⟨acc, emitted, stop⟩ := r
  cases stop with
  | tooShort => exact .inl h
  | cleared =>
    have empty : acc = [] := h
    exact .inl (by simp [empty])
  | waiting =>
    obtain ⟨marker, waits⟩ := h
    by_cases short : acc.length < 4
    · exact .inl short
    · exact .inr ⟨Nat.le_of_not_lt short, marker, waits⟩

/-- A `FEED` that passes the capacity test ends within capacity (43_reassembler.md R148, R149). -/
theorem accWithinCap_of_reassemble {s : State} {chunk : Bytes} {r : Reassembly}
    (o : overflows s chunk = false)
    (h : reassemble s.params s.acc chunk = .ok r) : accWithinCap s.params r.acc := by
  rw [accWithinCap_iff]
  intro cap hc
  have fits : s.acc.length + chunk.length ≤ cap := by
    by_contra n
    rw [(overflows_iff s chunk).mpr ⟨cap, hc, by omega⟩] at o
    cases o
  have shrunk := feedLoop_length _ h
  rw [List.length_append] at shrunk
  omega

/-- Whatever an operation leaves in the accumulator meets the invariant. -/
theorem AccLeft.inv {i : Instr} {s : State} {acc : Bytes} (left : AccLeft i s acc) (inv : s.Inv) :
    (s.setAcc acc).Inv := by
  obtain rfl | ⟨-, rfl⟩ | ⟨chunk, result, -, o, d, rfl⟩ := left
  · exact inv
  · exact State.inv_of_acc_nil rfl
  · have stopped : StopSettled s.params result := feedLoop_stopSettled _ (Nat.lt_succ_self _) d
    have capped : accWithinCap s.params result.acc := accWithinCap_of_reassemble o d
    exact ⟨stopped.accSettled, capped⟩

/-- Settles O47: a step is idle, a reset, an operation (`AccLeft.inv`) or a rejected item, which keeps the block. -/
theorem stepKeepsInvariant : Obligations.StepKeepsInvariant := by
  intro s t inv h
  obtain ⟨-, rfl⟩ | ⟨rest, -, rfl⟩ | ⟨item, rest, i, -, -, e⟩ | ⟨item, rest, why, -, -, e⟩ := step_next h
  · exact inv
  · exact State.inv_of_acc_nil rfl
  · obtain ⟨crcReg, acc, r, -, left, rfl⟩ := exec_next e
    exact left.inv inv
  · obtain ⟨r, rfl⟩ := answerReject_next e
    exact inv

end Sys2Proof.Machine
end

section
/-! PROOFS. Encodings (30_encoding.md): the decoder and the encoder are inverse, length fields and wire rows carry what
they announce, and the pseudo-operations of R79 run as their expansions. -/

namespace Sys2Proof

/-! ## Decoder and encoder -/

/-- A short inbound header reads back (30_encoding.md R61): the clear flag tells its form, and no value bit is lost. The
lemmas that follow say the same of the other wire rows (R61 to R63). -/
theorem decodeInbound_shortField (im0 im1 hc : Byte) (len : BitVec 7) (rest : Bytes) :
    decodeInbound ([im0, im1, hc] ++ shortField len ++ rest) = .ok (.frameInShort im0 im1 hc len rest) := by
  simp [decodeInbound, shortField, shortField_form]

theorem decodeInbound_extField (im0 im1 hc : Byte) (len : BitVec 15) (rest : Bytes) :
    decodeInbound ([im0, im1, hc] ++ extField len ++ rest) = .ok (.frameInExt im0 im1 hc len rest) := by
  simp [decodeInbound, extField, extField_form, extValue_extField]

theorem decodeOutbound_shortField (om0 om1 om2 om3 cmd1 cmd2 : Byte) (len : BitVec 7) (payload : Bytes) :
    decodeOutbound ([om0, om1, om2, om3, cmd1, cmd2] ++ shortField len ++ payload) =
      .ok (.frameOutShort om0 om1 om2 om3 cmd1 cmd2 len payload) := by
  simp [decodeOutbound, shortField, shortField_form]

theorem decodeOutbound_extField (om0 om1 om2 om3 cmd1 cmd2 : Byte) (len : BitVec 15) (payload : Bytes) :
    decodeOutbound ([om0, om1, om2, om3, cmd1, cmd2] ++ extField len ++ payload) =
      .ok (.frameOutExt om0 om1 om2 om3 cmd1 cmd2 len payload) := by
  simp [decodeOutbound, extField, extField_form, extValue_extField]

theorem decodeLengthField_shortField (v : BitVec 7) : decodeLengthField (shortField v) = .ok (.lenShort v) := by
  simp [decodeLengthField, shortField, shortField_form]

theorem decodeLengthField_extField (v : BitVec 15) : decodeLengthField (extField v) = .ok (.lenExt v) := by
  simp [decodeLengthField, extField, extField_form, extValue_extField]

/-- Settles O56: a command is told by its select code, a wire row by its length field. -/
theorem decodeInvertsEncode : Obligations.DecodeInvertsEncode := by
  intro i
  cases i with
  | nop => rfl
  | crcInit seed => rfl
  | crcUpdate b => rfl
  | crcRead => rfl
  | crcCompute data initial => rfl
  | encode cmd1 cmd2 payload => rfl
  | decode buffer => rfl
  | feed chunk => rfl
  | rxClear => rfl
  | frameInShort im0 im1 hc len rest => exact decodeInbound_shortField im0 im1 hc len rest
  | frameInExt im0 im1 hc len rest => exact decodeInbound_extField im0 im1 hc len rest
  | frameOutShort om0 om1 om2 om3 cmd1 cmd2 len payload =>
    exact decodeOutbound_shortField om0 om1 om2 om3 cmd1 cmd2 len payload
  | frameOutExt om0 om1 om2 om3 cmd1 cmd2 len payload =>
    exact decodeOutbound_extField om0 om1 om2 om3 cmd1 cmd2 len payload
  | lenShort v => exact decodeLengthField_shortField v
  | lenExt v => exact decodeLengthField_extField v

/-- A byte without the flag is the whole short field of its value. -/
theorem shortField_of_form {b : Byte} (h : extendedForm b = false) : shortField (shortValue b) = [b] := by
  rw [shortField, shortField_shortValue b h]

/-- A flagged byte and the byte behind it are the whole extended field of their value. -/
theorem extField_of_form {b0 : Byte} (b1 : Byte) (h : extendedForm b0 = true) : extField (extValue b0 b1) = [b0, b1] := by
  obtain ⟨high, low⟩ := extValue_parts b0 b1
  rw [extField, high, low, extField_high b0 h]

/-- Operands that an operation accepts are those its instruction encodes. -/
theorem encode_of_decodeOperands {sel : Select} {operands : List Operand} {i : Instr}
    (h : decodeOperands sel operands = .ok i) : encode i = .command ⟨sel.code, operands⟩ := by
  cases sel <;> (simp only [decodeOperands] at h; split at h <;> cases h; rfl)

/-- A command that decodes is its instruction's encoding, select code and operands. -/
theorem encode_of_decodeCommand {c : Command} {i : Instr} (h : decodeCommand c = .ok i) : encode i = .command c := by
  rw [decodeCommand] at h
  cases hs : selectOf c.op with
  | none => rw [hs] at h; cases h
  | some sel =>
    rw [hs] at h
    rw [encode_of_decodeOperands h, code_of_selectOf c.op sel hs]

/-- Wire bytes that decode are the encoding of what was read, and nothing of them is dropped: both forms of the
length field give back their bytes. -/
theorem encode_of_decodeInbound {bytes : Bytes} {i : Instr} (h : decodeInbound bytes = .ok i) :
    encode i = .wire .inbound bytes := by
  revert h
  fun_cases decodeInbound bytes with
  | case1 im0 im1 hc b0 form b1 rest =>
    rintro ⟨⟩
    simp [encode, extField_of_form b1 form]
  | case2 => nofun
  | case3 im0 im1 hc b0 rest form =>
    rw [Bool.not_eq_true] at form
    rintro ⟨⟩
    simp [encode, shortField_of_form form]
  | case4 => nofun

theorem encode_of_decodeOutbound {bytes : Bytes} {i : Instr} (h : decodeOutbound bytes = .ok i) :
    encode i = .wire .outbound bytes := by
  revert h
  fun_cases decodeOutbound bytes with
  | case1 om0 om1 om2 om3 cmd1 cmd2 b0 form b1 payload =>
    rintro ⟨⟩
    simp [encode, extField_of_form b1 form]
  | case2 => nofun
  | case3 om0 om1 om2 om3 cmd1 cmd2 b0 payload form =>
    rw [Bool.not_eq_true] at form
    rintro ⟨⟩
    simp [encode, shortField_of_form form]
  | case4 => nofun

theorem encode_of_decodeLengthField {bytes : Bytes} {i : Instr} (h : decodeLengthField bytes = .ok i) :
    encode i = .wire .lengthField bytes := by
  revert h
  fun_cases decodeLengthField bytes with
  | case1 => nofun
  | case2 b0 form =>
    rw [Bool.not_eq_true] at form
    rintro ⟨⟩
    simp [encode, shortField_of_form form]
  | case3 b0 b1 form =>
    rintro ⟨⟩
    simp [encode, extField_of_form b1 form]
  | case4 => nofun
  | case5 => nofun

/-- Settles O57: whichever form the item has, what was decoded from it encodes to it. -/
theorem encodeInvertsDecode : Obligations.EncodeInvertsDecode := by
  intro item i h
  cases item with
  | command c => exact encode_of_decodeCommand h
  | wire kind bytes =>
    cases kind with
    | inbound => exact encode_of_decodeInbound h
    | outbound => exact encode_of_decodeOutbound h
    | lengthField => exact encode_of_decodeLengthField h

/-- Settles O58 (word numbering: log entry 7), each word by evaluation. -/
theorem sampleWordsDecode : Obligations.SampleWordsDecode :=
  ⟨by decide, by decide, by decide, by decide, by decide, by decide, by decide, by decide⟩

end Sys2Proof

namespace Sys2Proof.Machine

/-! ## Length fields -/

/-- `LenDec` on a short field, whatever byte stands behind it (30_encoding.md R65). -/
theorem lenDec_shortField (v : BitVec 7) (b1 : Byte) : lenDec (byteAt (shortField v) 0) b1 = (v.toNat, 1) := by
  have short : ¬ 128 ≤ v.toNat := by have := v.isLt; omega
  rw [shortField, byteAt_cons_zero, lenDec_eq, shortField_toNat, if_neg short]

/-- `LenDec` on an extended field (30_encoding.md R65). -/
theorem lenDec_extField (v : BitVec 15) : lenDec (byteAt (extField v) 0) (byteAt (extField v) 1) = (v.toNat, 2) := by
  obtain ⟨high, low⟩ := extParts_toNat v
  have whole : (128 + v.toNat / 256 - 128) * 256 + v.toNat % 256 = v.toNat := by omega
  rw [extField, byteAt_cons_zero, byteAt_cons_succ, byteAt_cons_zero, lenDec_eq, extField_toNat, high, low,
    if_pos (Nat.le_add_right 128 _), whole]

/-- A short field is the canonical form of its value (30_encoding.md R64). -/
theorem lenEnc_eq_shortField (v : BitVec 7) : lenEnc v.toNat = shortField v := by
  rw [lenEnc_short v.isLt, shortField, ← shortField_toNat v, BitVec.ofNat_toNat, BitVec.setWidth_eq]

/-- An extended field is the canonical form of its value from 128 on (30_encoding.md R64). -/
theorem lenEnc_eq_extField {v : BitVec 15} (h : 128 ≤ v.toNat) : lenEnc v.toNat = extField v := by
  obtain ⟨high, low⟩ := extParts_toNat v
  have inside : v.toNat / 256 < 128 := by have := v.isLt; omega
  have first : (0x80#8 ||| BitVec.ofNat 8 (v.toNat / 256)) = 1#1 ++ v.extractLsb' 8 7 :=
    BitVec.eq_of_toNat_eq (by rw [flagged_toNat _ inside, extField_toNat, high])
  have second : BitVec.ofNat 8 (v.toNat % 256) = v.extractLsb' 0 8 :=
    BitVec.eq_of_toNat_eq (by rw [ofNat8_toNat (Nat.mod_lt _ (by decide)), low])
  rw [lenEnc_extended h, extField, first, second]

/-- `LenDec` of a value written by `LenEnc` (30_encoding.md R66): the form chosen is the field of that width. -/
theorem lenDec_lenEnc {v : Nat} (h : v ≤ 32767) :
    lenDec (byteAt (lenEnc v) 0) (byteAt (lenEnc v) 1) = (v, (lenEnc v).length) := by
  by_cases short : v < 128
  · have value : (BitVec.ofNat 7 v).toNat = v := by simp [Nat.mod_eq_of_lt short]
    have form : lenEnc v = shortField (BitVec.ofNat 7 v) := by rw [← lenEnc_eq_shortField, value]
    rw [form, lenDec_shortField, value]; rfl
  · have value : (BitVec.ofNat 15 v).toNat = v := by simp; omega
    have form : lenEnc v = extField (BitVec.ofNat 15 v) := by rw [← lenEnc_eq_extField (by omega), value]
    rw [form, lenDec_extField, value]; rfl

/-- Settles O11: `lenDec_lenEnc`, and a flagged zero byte adds nothing to the byte behind it. -/
theorem lengthFieldRoundTrips : Obligations.LengthFieldRoundTrips := by
  refine ⟨fun v h => lenDec_lenEnc h, fun v h => ⟨?_, ?_⟩⟩
  · rw [lenDec_eq, if_pos (by decide), ofNat8_toNat (show v < 256 by omega)]
    simp
  · rw [lenEnc_short h]
    simp

/-- Settles O12: each row answers what `LenDec` reads in its field. -/
theorem lengthRowsReadTheirValue : Obligations.LengthRowsReadTheirValue := by
  constructor
  · intro s v
    rw [exec, execLenShort, answerLength_eq, lenDec_shortField]; rfl
  · intro s v
    rw [exec, execLenExt, answerLength_eq, lenDec_extField]; rfl

/-! ## Outbound rows -/

/-- Settles O17: both rows answer their bytes sealed. -/
theorem outboundRowsAppendChecksum : Obligations.OutboundRowsAppendChecksum := by
  constructor
  · rintro s om0 om1 om2 om3 cmd1 cmd2 len payload body rfl
    exact answerSealed_eq _ s
  · rintro s om0 om1 om2 om3 cmd1 cmd2 len payload body rfl
    exact answerSealed_eq _ s

/-- `ENCODE` seals the outbound marker, the command bytes and any field that is the canonical length of a payload that
fits (41_frame_encode.md R110, R111). -/
theorem execEncode_eq_answerSealed {s : State} {marker field payload : Bytes} (cmd1 cmd2 : Byte)
    (hm : marker = s.params.outMarker) (hf : lenEnc payload.length = field) (fits : payload.length ≤ 32767) :
    execEncode cmd1 cmd2 payload s = answerSealed (marker ++ [cmd1, cmd2] ++ field ++ payload) s := by
  subst hm hf
  obtain ⟨long, -⟩ | ⟨-, e⟩ := execEncode_cases cmd1 cmd2 payload s
  · omega
  · exact e

/-- The marker and the length value of an outbound row that matches the parameters. -/
theorem outboundMatches_iff (p : Params) (marker : Bytes) (len : Nat) (payload : Bytes) :
    outboundMatches p marker len payload = true ↔ marker = p.outMarker ∧ payload.length = len := by
  simp [outboundMatches]

/-- Settles O18: a well-formed row's length field is the canonical one (30_encoding.md R62, R64). -/
theorem outboundRowsAreEncodedFrames : Obligations.OutboundRowsAreEncodedFrames := by
  constructor
  · intro s om0 om1 om2 om3 cmd1 cmd2 len payload wf
    obtain ⟨marker, count⟩ := (outboundMatches_iff _ _ _ _).mp wf
    have canonical : lenEnc payload.length = shortField len := by rw [count, lenEnc_eq_shortField]
    exact (execEncode_eq_answerSealed cmd1 cmd2 marker canonical (by have := len.isLt; omega)).symm
  · intro s om0 om1 om2 om3 cmd1 cmd2 len payload wf
    rw [Instr.wf, Bool.and_eq_true, outboundMatches_iff, decide_eq_true_eq] at wf
    obtain ⟨⟨marker, count⟩, long⟩ := wf
    have canonical : lenEnc payload.length = extField len := by rw [count, lenEnc_eq_extField long]
    exact (execEncode_eq_answerSealed cmd1 cmd2 marker canonical (by have := len.isLt; omega)).symm

/-! ## Inbound rows -/

/-- An answer with a decode result that is known. -/
theorem answerDecode_of_ok {buffer : Bytes} {s : State} {r : FrameResult} (h : frameDecode s.params buffer = .ok r) :
    answerDecode buffer s = .next (s.respond (.ok (.decoded r))) := by
  rw [answerDecode, h]; rfl

/-- Settles O28: under the normative policy `Decode` has a result. -/
theorem inboundRowsAreDecoded : Obligations.InboundRowsAreDecoded := by
  constructor
  · intro s im0 im1 hc len rest normative
    obtain ⟨r, h⟩ := frameDecode_total normative ([im0, im1, hc] ++ shortField len ++ rest)
    exact ⟨r, h, answerDecode_of_ok h⟩
  · intro s im0 im1 hc len rest normative
    obtain ⟨r, h⟩ := frameDecode_total normative ([im0, im1, hc] ++ extField len ++ rest)
    exact ⟨r, h, answerDecode_of_ok h⟩

/-- What a header with any length field at offset 3 announces is what `LenDec` reads there (30_encoding.md R68). -/
theorem announced_eq_lenDec (buffer : Bytes) :
    announcedLength buffer = (lenDec (byteAt buffer 3) (byteAt buffer 4)).1 ∧
      announcedHeader buffer = 3 + (lenDec (byteAt buffer 3) (byteAt buffer 4)).2 := by
  rw [lenDec_eq, announcedLength, announcedHeader]
  by_cases extended : 128 ≤ (byteAt buffer 3).toNat <;> simp [extended]

theorem announced_shortField (a b c : Byte) (len : BitVec 7) (t : Bytes) :
    announcedLength ([a, b, c] ++ shortField len ++ t) = len.toNat ∧
      announcedHeader ([a, b, c] ++ shortField len ++ t) = 4 := by
  obtain ⟨length, header⟩ := announced_eq_lenDec ([a, b, c] ++ shortField len ++ t)
  have read : lenDec (byteAt ([a, b, c] ++ shortField len ++ t) 3) (byteAt ([a, b, c] ++ shortField len ++ t) 4) =
      (len.toNat, 1) := lenDec_shortField len _
  rw [length, header, read]
  exact ⟨rfl, rfl⟩

theorem announced_extField (a b c : Byte) (len : BitVec 15) (t : Bytes) :
    announcedLength ([a, b, c] ++ extField len ++ t) = len.toNat ∧
      announcedHeader ([a, b, c] ++ extField len ++ t) = 5 := by
  obtain ⟨length, header⟩ := announced_eq_lenDec ([a, b, c] ++ extField len ++ t)
  have read : lenDec (byteAt ([a, b, c] ++ extField len ++ t) 3) (byteAt ([a, b, c] ++ extField len ++ t) 4) =
      (len.toNat, 2) := lenDec_extField len
  rw [length, header, read]
  exact ⟨rfl, rfl⟩

/-- Step D5 on a sealed header and payload: the checksum matches, and what stands between is the payload
(42_frame_decode.md R121). -/
theorem decodeComplete_sealFrame (p : Params) (header payload : Bytes) :
    decodeComplete p (sealFrame (header ++ payload)) (payload.length + 2) header.length =
      .ok (.valid header.length (header.length + (payload.length + 2)) payload) := by
  have total : header.length + (payload.length + 2) - 2 = (header ++ payload).length := by simp; omega
  have last : header.length + (payload.length + 2) - 1 = (header ++ payload).length + 1 := by simp; omega
  have body : (sealFrame (header ++ payload)).take (header ++ payload).length = header ++ payload := List.take_left
  have high : byteAt (sealFrame (header ++ payload)) (header ++ payload).length =
      highByte (frameChecksum (header ++ payload)) := by
    rw [sealFrame, byteAt_append_right (le_refl _), Nat.sub_self]; rfl
  have low : byteAt (sealFrame (header ++ payload)) ((header ++ payload).length + 1) =
      (frameChecksum (header ++ payload)).setWidth 8 := by
    rw [sealFrame, byteAt_append_right (Nat.le_add_right _ 1), Nat.add_sub_cancel_left]; rfl
  have cut : slice (sealFrame (header ++ payload)) header.length (header ++ payload).length = payload := by
    rw [slice, body, List.drop_left]
  have room : ¬ payload.length + 2 < Config.trailerLen := by rw [Config.trailerLen]; omega
  simp only [decodeComplete, total, last, body, high, low, cut, u16be_be16]
  rw [if_neg room, if_neg (not_not.mpr rfl)]

/-- A sealed header and payload whose header announces exactly them is a valid frame, in either form of the length
field (42_frame_decode.md R121, R127). -/
theorem frameDecode_sealFrame {p : Params} {hc : Byte} {field payload : Bytes} {buffer : Bytes}
    (hb : buffer = sealFrame ([p.im0, p.im1, hc] ++ field ++ payload))
    (length : announcedLength buffer = payload.length + 2) (header : announcedHeader buffer = 3 + field.length) :
    frameDecode p buffer = .ok (.valid (3 + field.length) (3 + field.length + (payload.length + 2)) payload) := by
  have size : buffer.length = 3 + field.length + (payload.length + 2) := by
    rw [hb, sealFrame]; simp; omega
  have c : Complete p buffer := by
    refine ⟨by have := announcedHeader_bounds buffer; omega, by rw [hb]; rfl, by rw [hb]; rfl, fun extended => ?_, ?_⟩
    · rw [announcedHeader, if_pos extended] at header; omega
    · rw [announcedTotal, length, header, size]
  rw [frameDecode_complete c, length, header, hb]
  have count : 3 + field.length = ([p.im0, p.im1, hc] ++ field).length := by simp; omega
  rw [count]
  exact decodeComplete_sealFrame p _ payload

/-- Settles O29: the row's bytes are its header and payload sealed, and the header announces them. -/
theorem wholeInboundRowsGiveTheirPayload : Obligations.WholeInboundRowsGiveTheirPayload := by
  constructor
  · rintro s hc len payload header count rfl
    apply answerDecode_of_ok
    obtain ⟨length, size⟩ := announced_shortField s.params.im0 s.params.im1 hc len
      (payload ++ be16 (crc16 ([s.params.im0, s.params.im1, hc] ++ shortField len ++ payload) 0x0000#16))
    rw [count] at length
    rw [count]
    exact frameDecode_sealFrame (List.append_assoc _ _ _).symm length size
  · rintro s hc len payload header count rfl
    apply answerDecode_of_ok
    obtain ⟨length, size⟩ := announced_extField s.params.im0 s.params.im1 hc len
      (payload ++ be16 (crc16 ([s.params.im0, s.params.im1, hc] ++ extField len ++ payload) 0x0000#16))
    rw [count] at length
    rw [count]
    exact frameDecode_sealFrame (List.append_assoc _ _ _).symm length size

/-! ## Reserved select codes -/

/-- A command with a reserved code is rejected before its operands are looked at (60_exceptions.md R195). -/
theorem decode_reserved {op : BitVec 4} (h : 9 ≤ op.toNat) (operands : List Operand) :
    decode (.command ⟨op, operands⟩) = .error .reservedSelectCode := by
  rw [decode, decodeCommand, (selectOf_none_iff op).mpr h]

/-- An invocation that does not decode is answered as rejected, with the input taken. -/
theorem step_invoke_of_reject {item : Item} {why : Reject} (s : State) (rest : List Event)
    (h : decode item = .error why) :
    step { s with pending := .invoke item :: rest } = answerReject why { s with pending := rest } := by
  simp only [step, fetch, h]

/-- Settles O53: a rejected reserved code is refused with its status code, and the state is kept. -/
theorem reservedCodesAreRefused : Obligations.ReservedCodesAreRefused :=
  ⟨fun s _ operands rest h => step_invoke_of_reject s rest (decode_reserved h operands), fun _ => rfl, rfl, rfl, rfl⟩

/-! ## Pseudo-operations -/

/-- One operation of a program runs as one step, and the rest of the program is queued behind it. -/
theorem run_withProgram_cons {s t : State} {i : Instr} {is : List Instr} (k : Nat)
    (h : exec i (s.withProgram is) = .next t) : core.run (k + 1) (s.withProgram (i :: is)) = core.run k t := by
  have decoded : decode (encode i) = .ok i := decodeInvertsEncode i
  have fetched : fetch (s.withProgram (i :: is)) = .run i (s.withProgram is) :=
    fetch_invoke_of_decode s (invocations is) decoded
  exact run_succ k ((step_of_fetch_run fetched).trans h)

/-- One `CRC_UPDATE` a byte folds the bytes into `crc_reg` (40_crc.md R92, R97), before any program that follows. -/
theorem run_crcUpdates (k : Nat) (is : List Instr) (data : Bytes) (s : State) :
    core.run (data.length + k) (s.withProgram (data.map .crcUpdate ++ is)) =
      core.run k (State.withProgram
        { s with
          crcReg := crc16 data s.crcReg
          responses := s.responses ++ List.replicate data.length (.ok .none) } is) := by
  induction data generalizing s with
  | nil => simp
  | cons b data ih =>
    have first : exec (.crcUpdate b) (s.withProgram (data.map .crcUpdate ++ is)) =
        .next (State.withProgram ((s.setCrc (crcStep s.crcReg b)).respond (.ok .none)) (data.map .crcUpdate ++ is)) := rfl
    rw [List.length_cons, Nat.add_right_comm, List.map_cons, List.cons_append, run_withProgram_cons _ first, ih]
    simp [State.respond, State.setCrc, List.replicate_succ]

/-- Settles O10: `CRC_INIT` loads the seed, `run_crcUpdates` folds the data, `CRC_READ` returns the register. -/
theorem crcStreamReturnsChecksum : Obligations.CrcStreamReturnsChecksum := by
  intro s data seed
  have init : exec (.crcInit seed) (s.withProgram (data.map .crcUpdate ++ [.crcRead])) =
      .next (State.withProgram ((s.setCrc seed).respond (.ok .none)) (data.map .crcUpdate ++ [.crcRead])) := rfl
  have read (t : State) : core.run 1 (t.withProgram [.crcRead]) =
      .next { t with pending := [], responses := t.responses ++ [.ok (.value t.crcReg)] } :=
    run_withProgram_cons 0 rfl
  rw [expandPseudo, List.append_assoc, List.singleton_append, run_withProgram_cons (data.length + 1) init,
    run_crcUpdates, read]
  simp [State.respond, State.setCrc, List.replicate_succ]

/-- Settles O45: `RX_CLEAR` empties `acc`, `CRC_INIT 0` clears `crc_reg`. -/
theorem restartReachesResetValues : Obligations.RestartReachesResetValues := by
  intro s
  have clear : exec .rxClear (s.withProgram [.crcInit 0x0000#16]) =
      .next (State.withProgram ((s.setAcc []).respond (.ok .none)) [.crcInit 0x0000#16]) := rfl
  have init (t : State) : core.run 1 (t.withProgram [.crcInit 0x0000#16]) =
      .next { t with crcReg := 0x0000#16, pending := [], responses := t.responses ++ [.ok .none] } :=
    run_withProgram_cons 0 rfl
  rw [expandPseudo, run_withProgram_cons 1 clear, init]
  simp [State.respond, State.setAcc]

end Sys2Proof.Machine
end

section
/-! PROOFS. The CRC generator (40_crc.md): the bit-serial form of the byte step, the laws of the fold, the table as it is
listed, and the four operations. -/

namespace Sys2Proof.Machine

/-! ## The bit-serial form -/

/-- The bit-serial form repeats the shift that builds the table (40_crc.md R90, R93). -/
theorem bitSerial_eq_iterate (k : Nat) (r : Word) : bitSerial k r = crcShift^[k] r := by
  induction k generalizing r with
  | zero => rfl
  | succ k ih => rw [bitSerial, ih, Function.iterate_succ_apply, crcShift_eq_msb, BitVec.msb_eq_getLsbD_last]

/-- Settles O6: both forms are eight shifts of the register with the byte entered at the high end. -/
theorem crcStepIsBitSerial : Obligations.CrcStepIsBitSerial := by
  intro reg b
  have eight (r : Word) : bitSerial 8 r = crcShift8 r := bitSerial_eq_iterate 8 r
  rw [eight, crcStep_eq_shift8]

/-! ## The laws of the fold -/

theorem crc16_append (a b : Bytes) (s : Word) : crc16 (a ++ b) s = crc16 b (crc16 a s) := by
  simp only [crc16_eq_foldl, List.foldl_append]

/-- A register folded over its own two bytes is zero (40_crc.md R95). -/
theorem crc16_be16_self (c : Word) : crc16 (be16 c) c = 0x0000#16 :=
  (crcStep_twice_eq_zero_iff c (highByte c) (c.setWidth 8)).mpr (u16be_be16 c).symm

/-- The exclusive-or law with a seed on each side, which the induction over the data needs: after the first step the
registers are no longer zero. -/
theorem crc16_zipWith_xor (x y : Bytes) (h : x.length = y.length) (r r' : Word) :
    crc16 (List.zipWith (· ^^^ ·) x y) (r ^^^ r') = crc16 x r ^^^ crc16 y r' := by
  induction x generalizing y r r' with
  | nil =>
    obtain rfl := List.length_eq_zero_iff.mp h.symm
    rfl
  | cons b x ih =>
    obtain ⟨c, y, rfl⟩ := List.exists_cons_of_length_eq_add_one h.symm
    rw [List.zipWith_cons_cons, crc16_cons, crc16_cons, crc16_cons, crcStep_xor, ih y (Nat.succ.inj h)]

/-- Zero bytes leave a zero register as it is (40_crc.md R100). -/
theorem crc16_replicate_zero (n : Nat) : crc16 (List.replicate n 0#8) 0#16 = 0#16 := by
  induction n with
  | zero => rfl
  | succ n ih => rw [List.replicate_succ, crc16_cons, crcStep_zero, ih]

/-- Settles O7, by the library's law of a fold over an appended list. -/
theorem checksumComposes : Obligations.ChecksumComposes := crc16_append

/-- Settles O8: behind the data, the register is folded over its own bytes. -/
theorem checksumResidueIsZero : Obligations.ChecksumResidueIsZero := by
  intro d s
  rw [crc16_append, crc16_be16_self]

/-- Settles O9: the exclusive-or law at seeds 0 and 0, and a prefix of zeros that hands on the register 0. -/
theorem checksumIsLinear : Obligations.ChecksumIsLinear := by
  constructor
  · intro x y h
    exact crc16_zipWith_xor x y h 0#16 0#16
  · intro n d
    rw [crc16_append, crc16_replicate_zero]

/-! ## The table as it is listed -/

theorem crcListing_getElem? (b : Byte) : crcListing[b.toNat]? = some (crcTable b).toNat := by
  revert b; decide +kernel

/-- Settles O5: each of the 256 entries is built and compared, and the nine ASCII digits are folded. -/
theorem crcTableIsTheListing : Obligations.CrcTableIsTheListing := by
  refine ⟨?_, crcListing_getElem?, ?_⟩
  · decide +kernel
  · decide

/-! ## The four operations -/

/-- Settles O1: the command is the encoding of the operation, whose answer is the register written and `OK`. -/
theorem crcInitLoadsSeed : Obligations.CrcInitLoadsSeed :=
  fun _ seed => ⟨decodeInvertsEncode (.crcInit seed), rfl⟩

/-- Settles O2: as O1, and what is written is the byte step of R91 spelt out. -/
theorem crcUpdateFoldsOneByte : Obligations.CrcUpdateFoldsOneByte :=
  fun _ b => ⟨decodeInvertsEncode (.crcUpdate b), rfl⟩

/-- Settles O3: the answer holds the register, and the state is only responded from. -/
theorem crcReadReturnsRegister : Obligations.CrcReadReturnsRegister :=
  fun _ => ⟨decodeInvertsEncode .crcRead, rfl⟩

/-- Settles O4: the answer is the model's recursion, which is the fold (`crc16_eq_foldl`). -/
theorem crcComputeReturnsChecksum : Obligations.CrcComputeReturnsChecksum := by
  intro s data initial
  rw [← crc16_eq_foldl]
  exact ⟨decodeInvertsEncode (.crcCompute data initial), rfl⟩

end Sys2Proof.Machine
end

section
/-! PROOFS. The frame encoder (41_frame_encode.md): where an encoded frame's parts lie, that a frame determines its
operands, its checksum, its rejection by `Decode`, and the operation `ENCODE`. -/

namespace Sys2Proof.Machine

/-! ## Sealed bodies -/

@[simp] theorem sealFrame_length (body : Bytes) : (sealFrame body).length = body.length + 2 := by
  rw [sealFrame, List.length_append, be16_length]

/-- The first `n` bytes of a body are those of the body sealed. -/
theorem take_sealFrame {body : Bytes} {n : Nat} (h : n ≤ body.length) : (sealFrame body).take n = body.take n :=
  List.take_append_of_le_length h

/-- The last two bytes of a sealed body are the checksum of all bytes before them (30_encoding.md R69). -/
theorem drop_sealFrame (body : Bytes) :
    (sealFrame body).drop body.length = be16 (crc16 ((sealFrame body).take body.length) 0x0000#16) := by
  rw [take_sealFrame (Nat.le_refl _), List.take_length, sealFrame, List.drop_left]
  rfl

/-- Sealing loses nothing: the checksum's size is fixed, so the body is what precedes it. -/
theorem sealFrame_injective {a b : Bytes} (h : sealFrame a = sealFrame b) : a = b := by
  have count : (sealFrame a).length = (sealFrame b).length := congrArg List.length h
  rw [sealFrame_length, sealFrame_length] at count
  exact List.append_inj_left h (Nat.add_right_cancel count)

/-- What stands between a header and the checksum (00_scope.md R12). -/
theorem slice_sealFrame (header payload : Bytes) :
    slice (sealFrame (header ++ payload)) header.length (header.length + payload.length) = payload := by
  rw [← List.length_append, slice, take_sealFrame (Nat.le_refl _), List.take_length, List.drop_left]

/-! ## The parts of an encoded frame -/

/-- The bytes of an outbound frame before its payload (41_frame_encode.md R110). -/
def outHeader (p : Params) (cmd1 cmd2 : Byte) (n : Nat) : Bytes := p.outMarker ++ [cmd1, cmd2] ++ lenEnc n

theorem frameEncode_eq (p : Params) (cmd1 cmd2 : Byte) (payload : Bytes) :
    frameEncode p cmd1 cmd2 payload = sealFrame (outHeader p cmd1 cmd2 payload.length ++ payload) := rfl

theorem outHeader_length (p : Params) (cmd1 cmd2 : Byte) (n : Nat) :
    (outHeader p cmd1 cmd2 n).length = if n < 128 then 7 else 8 := by
  rw [outHeader, List.length_append, lenEnc_length]
  by_cases short : n < 128
  · rw [if_pos short, if_pos short]; rfl
  · rw [if_neg short, if_neg short]; rfl

theorem frameEncode_length (p : Params) (cmd1 cmd2 : Byte) (payload : Bytes) :
    (frameEncode p cmd1 cmd2 payload).length = (outHeader p cmd1 cmd2 payload.length).length + payload.length + 2 := by
  rw [frameEncode_eq, sealFrame_length, List.length_append]

/-- A frame's size and the place of its payload, by the size of its header (41_frame_encode.md R113). -/
theorem frameEncode_layout {p : Params} {cmd1 cmd2 : Byte} {payload : Bytes} {k : Nat}
    (h : (outHeader p cmd1 cmd2 payload.length).length = k) :
    (frameEncode p cmd1 cmd2 payload).length = k + 2 + payload.length ∧
      slice (frameEncode p cmd1 cmd2 payload) k (k + payload.length) = payload := by
  subst h
  exact ⟨by rw [frameEncode_length, Nat.add_right_comm], slice_sealFrame _ payload⟩

theorem frameEncode_take_six (p : Params) (cmd1 cmd2 : Byte) (payload : Bytes) :
    (frameEncode p cmd1 cmd2 payload).take 6 = p.outMarker ++ [cmd1, cmd2] := rfl

/-- The last two bytes of an encoded frame are the checksum of those before them. -/
theorem frameEncode_trailer (p : Params) (cmd1 cmd2 : Byte) (payload : Bytes) :
    ∀ n, n = (frameEncode p cmd1 cmd2 payload).length - 2 →
      (frameEncode p cmd1 cmd2 payload).drop n = be16 (crc16 ((frameEncode p cmd1 cmd2 payload).take n) 0x0000#16) := by
  rintro n rfl
  rw [frameEncode_eq, sealFrame_length, Nat.add_sub_cancel]
  exact drop_sealFrame _

/-- A frame's size tells its payload's size: the sizes grow strictly, past 128 too (41_frame_encode.md R113). -/
theorem payload_length_of_frameEncode_length {p : Params} {c1 c2 d1 d2 : Byte} {payload other : Bytes}
    (h : (frameEncode p c1 c2 payload).length = (frameEncode p d1 d2 other).length) :
    payload.length = other.length := by
  rw [frameEncode_length, frameEncode_length, outHeader_length, outHeader_length] at h
  split at h <;> split at h <;> omega

/-- The frame determines its operands: the command bytes stand at fixed places, and with equal payload sizes the
payloads do too. -/
theorem frameEncode_injective {p : Params} {c1 c2 d1 d2 : Byte} {payload other : Bytes}
    (h : frameEncode p c1 c2 payload = frameEncode p d1 d2 other) : c1 = d1 ∧ c2 = d2 ∧ payload = other := by
  have first : p.outMarker ++ [c1, c2] = p.outMarker ++ [d1, d2] := congrArg (List.take 6) h
  obtain ⟨rfl, rfl⟩ : c1 = d1 ∧ c2 = d2 := by simpa using first
  have count : payload.length = other.length := payload_length_of_frameEncode_length (congrArg List.length h)
  rw [frameEncode_eq, frameEncode_eq, count] at h
  exact ⟨rfl, rfl, List.append_cancel_left (sealFrame_injective h)⟩

/-- Settles O15: the header has 7 or 8 bytes, the frame seals it with the payload, and determines both. -/
theorem encodedFrameShape : Obligations.EncodedFrameShape := by
  intro p c1 c2 payload _
  refine ⟨fun short => ?_, fun long => ?_, frameEncode_take_six p c1 c2 payload, frameEncode_trailer p c1 c2 payload,
    fun d1 d2 other _ same => frameEncode_injective same⟩
  · have header : (outHeader p c1 c2 payload.length).length = 7 := by rw [outHeader_length, if_pos short]
    exact frameEncode_layout header
  · have header : (outHeader p c1 c2 payload.length).length = 8 := by
      rw [outHeader_length, if_neg (Nat.not_lt.mpr long)]
    exact frameEncode_layout header

/-- Settles O16: a frame is a body and its own checksum, whose residue is zero (40_crc.md R95). -/
theorem encodedFrameResidueIsZero : Obligations.EncodedFrameResidueIsZero :=
  fun p c1 c2 payload _ => checksumResidueIsZero (outHeader p c1 c2 payload.length ++ payload) 0x0000#16

/-! ## Encoded frames and `Decode` -/

theorem take_two_eq_byteAt {buffer : Bytes} (h : 2 ≤ buffer.length) :
    buffer.take 2 = [byteAt buffer 0, byteAt buffer 1] :=
  match buffer, h with
  | _ :: _ :: _, _ => rfl

/-- Step D2: with 4 bytes present, another marker is decided at once (42_frame_decode.md R121). -/
theorem frameDecode_of_marker_ne {p : Params} {buffer : Bytes} (long : 4 ≤ buffer.length)
    (h : buffer.take 2 ≠ p.inMarker) : frameDecode p buffer = .ok .invalid := by
  have other : byteAt buffer 0 ≠ p.im0 ∨ byteAt buffer 1 ≠ p.im1 := by
    rw [← not_and_or]
    rintro ⟨m0, m1⟩
    exact h (by rw [take_two_eq_byteAt (by omega), m0, m1, Params.inMarker])
  rw [frameDecode_eq, if_neg (Nat.not_lt.mpr long), if_pos other]

/-- Settles O25: the frame's first two bytes are those of `OUT_MARKER`, and step D2 rejects them. -/
theorem encodedFrameIsNotInbound : Obligations.EncodedFrameIsNotInbound := by
  intro p c1 c2 payload _ differ
  have long : 4 ≤ (frameEncode p c1 c2 payload).length := by
    rw [frameEncode_length, outHeader_length]
    split <;> omega
  have first : (frameEncode p c1 c2 payload).take 2 = p.outMarker.take 2 := rfl
  exact frameDecode_of_marker_ne long (first ▸ differ)

/-! ## The operation `ENCODE` -/

/-- Settles O13: the command is the encoding of the operation, whose two ways to go are those of the length test. -/
theorem encodeReturnsFrame : Obligations.EncodeReturnsFrame := by
  intro s cmd1 cmd2 payload
  refine ⟨decodeInvertsEncode (.encode cmd1 cmd2 payload), ?_, fun long => ?_⟩
  · rintro fits body rfl
    exact execEncode_eq_answerSealed cmd1 cmd2 rfl rfl fits
  · obtain ⟨-, refused⟩ | ⟨fits, -⟩ := execEncode_cases cmd1 cmd2 payload s
    · exact refused
    · omega

/-- Settles O14: a payload that fits is answered with a frame, so a refusal is a longer payload's. -/
theorem encodeRefusesLongPayload : Obligations.EncodeRefusesLongPayload := by
  intro s cmd1 cmd2 payload
  obtain ⟨-, -, refused⟩ := encodeReturnsFrame s cmd1 cmd2 payload
  refine ⟨fun h => ?_, refused⟩
  obtain ⟨long, -⟩ | ⟨-, framed⟩ := execEncode_cases cmd1 cmd2 payload s
  · exact long
  · have same := framed.symm.trans h
    simp [State.respond] at same

end Sys2Proof.Machine
end

section
/-! PROOFS. The frame decoder (42_frame_decode.md): a decided result ignores what follows, `Decode` inverts the inbound
constructor, what the checksum detects, and length values below 2. -/

namespace Sys2Proof.Machine

/-! ## Trailing bytes and prefixes -/

/-- Step D5 decides from the candidate and step D2 from the first four bytes, so an outcome other than incomplete, a
fault included, stays with bytes appended (42_frame_decode.md R125). -/
theorem frameDecode_append_of_ne_incomplete {p : Params} {buffer : Bytes}
    (h : frameDecode p buffer ≠ .ok .incomplete) (t : Bytes) : frameDecode p (buffer ++ t) = frameDecode p buffer := by
  obtain waits | ⟨long, other, e⟩ | c := frameDecode_cases p buffer
  · exact absurd waits h
  · have long' : ¬ (buffer ++ t).length < 4 := by rw [List.length_append]; omega
    have other' : byteAt (buffer ++ t) 0 ≠ p.im0 ∨ byteAt (buffer ++ t) 1 ≠ p.im1 := by
      rwa [byteAt_append_left (by omega), byteAt_append_left (by omega)]
    rw [e, frameDecode_eq, if_neg long', if_pos other']
  · exact frameDecode_append_complete c t

/-- Settles O22: a decided result is not incomplete. -/
theorem trailingBytesAreIgnored : Obligations.TrailingBytesAreIgnored := by
  intro p buffer t r h decided
  have ne : frameDecode p buffer ≠ .ok .incomplete := by
    rw [h]
    rintro ⟨⟩
    exact decided rfl
  rw [frameDecode_append_of_ne_incomplete ne, h]

/-- Fewer bytes than a valid frame occupies are incomplete: any other outcome on them would be the whole buffer's, and a
valid frame does not reach past the bytes it is decoded from (42_frame_decode.md R129). -/
theorem frameDecode_take_incomplete {p : Params} {buffer : Bytes} {hs total : Nat} {payload : Bytes}
    (h : frameDecode p buffer = .ok (.valid hs total payload)) {n : Nat} (few : n < total) :
    frameDecode p (buffer.take n) = .ok .incomplete := by
  by_contra decided
  have whole := frameDecode_append_of_ne_incomplete decided (buffer.drop n)
  rw [List.take_append_drop, h] at whole
  obtain ⟨-, inside⟩ := frameDecode_valid_bounds whole.symm
  rw [List.length_take] at inside
  omega

/-! ## The inbound constructor -/

theorem mkInbound_eq (p : Params) (hc : Byte) (payload : Bytes) :
    mkInbound p hc payload = sealFrame ([p.im0, p.im1, hc] ++ lenEnc (payload.length + 2) ++ payload) := rfl

theorem mkInbound_length (p : Params) (hc : Byte) (payload : Bytes) :
    (mkInbound p hc payload).length = 3 + (lenEnc (payload.length + 2)).length + payload.length + 2 := by
  simp [mkInbound_eq]; omega

/-- The constructed frame by itself: its canonical length field announces payload and checksum. -/
theorem frameDecode_mkInbound (p : Params) (hc : Byte) {payload : Bytes} (fits : payload.length ≤ 32765) :
    frameDecode p (mkInbound p hc payload) =
      .ok (.valid (3 + (lenEnc (payload.length + 2)).length) (mkInbound p hc payload).length payload) := by
  obtain ⟨length, header⟩ := announced_lenEnc p.im0 p.im1 hc (payload.length + 2)
    (payload ++ be16 (frameChecksum ([p.im0, p.im1, hc] ++ lenEnc (payload.length + 2) ++ payload))) (by omega)
  rw [← List.append_assoc] at length header
  rw [mkInbound_length]
  exact frameDecode_sealFrame (mkInbound_eq p hc payload) length header

/-- The header size of the constructed frame (42_frame_decode.md R129). -/
theorem inboundHeader_size (n : Nat) : 3 + (lenEnc (n + 2)).length = if n ≤ 125 then 4 else 5 := by
  rw [lenEnc_length]
  split <;> split <;> omega

/-- Settles O23: the constructed frame is valid by itself, so bytes behind it are ignored and its prefixes are
incomplete. -/
theorem decodeInvertsMkInbound : Obligations.DecodeInvertsMkInbound := by
  rintro p hc payload t fits hs rfl
  have alone := frameDecode_mkInbound p hc fits
  refine ⟨?_, fun n few => frameDecode_take_incomplete alone few⟩
  rw [← inboundHeader_size, ← mkInbound_length p hc]
  exact trailingBytesAreIgnored p _ t _ alone nofun

/-! ## The checksum -/

/-- Settles O21: behind the body, the register is folded over the two bytes, which gives zero for its own bytes only. -/
theorem checksumTestIsResidueTest : Obligations.ChecksumTestIsResidueTest := by
  intro body hi lo
  rw [crc16_append]
  exact (crcStep_twice_eq_zero_iff (frameChecksum body) hi lo).symm

/-- `U16BE` tells pairs of bytes apart. -/
theorem u16be_injective {h l h' l' : Byte} (e : u16be h l = u16be h' l') : (h, l) = (h', l') := by
  have bytes : [h, l] = [h', l'] := by rw [← be16_u16be, e, be16_u16be]
  simpa using bytes

/-- What step D5 reads in a candidate whose checksum bytes stand behind `body`. -/
theorem trailer_parts (body t : Bytes) (hi lo : Byte) :
    (body ++ [hi, lo] ++ t).take body.length = body ∧ byteAt (body ++ [hi, lo] ++ t) body.length = hi ∧
      byteAt (body ++ [hi, lo] ++ t) (body.length + 1) = lo := by
  rw [List.append_assoc]
  refine ⟨List.take_left, ?_, ?_⟩
  · rw [byteAt_append_right (Nat.le_refl _), Nat.sub_self]; rfl
  · rw [byteAt_append_right (Nat.le_add_right _ 1), Nat.add_sub_cancel_left]; rfl

/-- A complete candidate whose header lies in `body` stays complete, and announces the same, with the two bytes behind
`body` changed. -/
theorem Complete.replaceTrailer {p : Params} {body t : Bytes} {hi lo : Byte} (c : Complete p (body ++ [hi, lo] ++ t))
    (header : announcedHeader (body ++ [hi, lo] ++ t) ≤ body.length) (hi' lo' : Byte) :
    Complete p (body ++ [hi', lo'] ++ t) ∧
      announcedLength (body ++ [hi', lo'] ++ t) = announcedLength (body ++ [hi, lo] ++ t) ∧
      announcedHeader (body ++ [hi', lo'] ++ t) = announcedHeader (body ++ [hi, lo] ++ t) := by
  have four := (announcedHeader_bounds (body ++ [hi, lo] ++ t)).1
  have same {k : Nat} (hk : k < body.length) :
      byteAt (body ++ [hi', lo'] ++ t) k = byteAt (body ++ [hi, lo] ++ t) k := by
    rw [List.append_assoc, List.append_assoc, byteAt_append_left hk, byteAt_append_left hk]
  have size : (body ++ [hi', lo'] ++ t).length = (body ++ [hi, lo] ++ t).length := by simp
  have b3 := same (k := 3) (by omega)
  have b4 (extended : 128 ≤ (byteAt (body ++ [hi', lo'] ++ t) 3).toNat) :
      byteAt (body ++ [hi', lo'] ++ t) 4 = byteAt (body ++ [hi, lo] ++ t) 4 := by
    rw [b3] at extended
    rw [announcedHeader, if_pos extended] at header
    exact same (by omega)
  obtain ⟨l, h⟩ := announced_congr b3 b4
  refine ⟨⟨size ▸ c.long, ?_, ?_, ?_, ?_⟩, l, h⟩
  · rw [same (by omega), c.marker0]
  · rw [same (by omega), c.marker1]
  · rw [b3, size]; exact c.header
  · rw [announcedTotal, l, h, size]; exact c.whole

/-- Step D5 on a complete candidate whose checksum bytes stand behind `body`: with another checksum there it is
invalid. -/
theorem frameDecode_of_checksum_ne {p : Params} {body t : Bytes} {hi lo : Byte}
    (c : Complete p (body ++ [hi, lo] ++ t)) (total : announcedTotal (body ++ [hi, lo] ++ t) = body.length + 2)
    (two : 2 ≤ announcedLength (body ++ [hi, lo] ++ t)) (differ : frameChecksum body ≠ u16be hi lo) :
    frameDecode p (body ++ [hi, lo] ++ t) = .ok .invalid := by
  obtain ⟨prior, high, low⟩ := trailer_parts body t hi lo
  have last : body.length + 2 - 1 = body.length + 1 := rfl
  rw [announcedTotal] at total
  rw [frameDecode_complete c]
  simp only [decodeComplete, Config.trailerLen, total, Nat.add_sub_cancel, last, prior, high, low]
  rw [if_neg (Nat.not_lt.mpr two), if_pos differ]

/-- Settles O24: the candidate and its computed checksum stay, and another stored value does not match it. -/
theorem changedChecksumIsInvalid : Obligations.ChangedChecksumIsInvalid := by
  intro p body t payload hi lo hi' lo' hs h differ
  obtain ⟨c, -, total, two, -, sum⟩ := frameDecode_valid h
  obtain ⟨prior, high, low⟩ := trailer_parts body t hi lo
  have matched : frameChecksum body = u16be hi lo := by
    rwa [Nat.add_sub_cancel, prior, high, show body.length + 2 - 1 = body.length + 1 from rfl, low] at sum
  have header : announcedHeader (body ++ [hi, lo] ++ t) ≤ body.length := by rw [announcedTotal] at total; omega
  obtain ⟨c', length', header'⟩ := c.replaceTrailer header hi' lo'
  refine frameDecode_of_checksum_ne c' ?_ (length' ▸ two) fun matched' => ?_
  · rw [total, announcedTotal, announcedTotal, length', header']
  · exact differ (u16be_injective (matched'.symm.trans matched))

/-! ## Length values below 2 -/

section
variable {p : Params} {hc : Byte} {field t : Bytes} {v : Nat}
  (announced : announcedLength ([p.im0, p.im1, hc] ++ field ++ t) = v ∧
    announcedHeader ([p.im0, p.im1, hc] ++ field ++ t) = 3 + field.length)
include announced

/-- Behind the marker and a whole length field, `v` bytes make the candidate complete. -/
theorem complete_of_announced (whole : v ≤ t.length) : Complete p ([p.im0, p.im1, hc] ++ field ++ t) := by
  obtain ⟨length, header⟩ := announced
  have bounds := announcedHeader_bounds ([p.im0, p.im1, hc] ++ field ++ t)
  have size : ([p.im0, p.im1, hc] ++ field ++ t).length = 3 + field.length + t.length := by simp; omega
  refine ⟨by omega, rfl, rfl, fun extended => ?_, ?_⟩
  · rw [announcedHeader, if_pos extended] at header
    omega
  · rw [announcedTotal, length, header, size]
    omega

/-- With fewer than `v` bytes there, step D4 waits, whatever `v` is (42_frame_decode.md R123). -/
theorem frameDecode_incomplete_of_announced (few : t.length < v) :
    frameDecode p ([p.im0, p.im1, hc] ++ field ++ t) = .ok .incomplete := by
  obtain ⟨length, header⟩ := announced
  obtain waits | ⟨-, other, -⟩ | c := frameDecode_cases p ([p.im0, p.im1, hc] ++ field ++ t)
  · exact waits
  · obtain m0 | m1 := other
    · exact absurd rfl m0
    · exact absurd rfl m1
  · have whole := c.whole
    rw [announcedTotal, length, header] at whole
    simp only [List.length_append, List.length_cons, List.length_nil] at whole
    omega

/-- Step D5 on a complete candidate with no room for a checksum, under both parameter values (42_frame_decode.md R124,
93 I1). -/
theorem frameDecode_lt_two (whole : v ≤ t.length) (few : v < 2) :
    (p.lenLt2 = .invalid → frameDecode p ([p.im0, p.im1, hc] ++ field ++ t) = .ok .invalid) ∧
      (p.lenLt2 = .fault → frameDecode p ([p.im0, p.im1, hc] ++ field ++ t) = .error .lengthBelowTwo) := by
  have c := complete_of_announced announced whole
  rw [frameDecode_complete c, announced.1, decodeComplete, Config.trailerLen, if_pos few]
  exact ⟨fun policy => by rw [policy], fun policy => by rw [policy]⟩

end

/-- Settles O26: in either form the field announces its value, and the result is decided once as many bytes follow. -/
theorem lengthBelowTwoIsInvalid : Obligations.LengthBelowTwoIsInvalid := by
  intro p hc x t policy
  have short (len : BitVec 7) (rest : Bytes) := announced_shortField p.im0 p.im1 hc len rest
  have extended (len : BitVec 15) (rest : Bytes) := announced_extField p.im0 p.im1 hc len rest
  have one : 1 ≤ (x :: t).length := Nat.le_add_left 1 t.length
  exact ⟨(frameDecode_lt_two (short 0#7 t) (Nat.zero_le _) (by decide)).1 policy,
    (frameDecode_lt_two (short 1#7 (x :: t)) one (by decide)).1 policy,
    (frameDecode_lt_two (extended 0#15 t) (Nat.zero_le _) (by decide)).1 policy,
    (frameDecode_lt_two (extended 1#15 (x :: t)) one (by decide)).1 policy,
    frameDecode_incomplete_of_announced (short 1#7 []) (by decide),
    frameDecode_incomplete_of_announced (extended 1#15 []) (by decide)⟩

/-! ## The operation `DECODE` -/

/-- Settles O19: the command is the encoding of the operation, and under the normative policy `Decode` has a result. -/
theorem decodeReturnsResult : Obligations.DecodeReturnsResult := by
  intro s buffer normative
  obtain ⟨r, h⟩ := frameDecode_total normative buffer
  exact ⟨decodeInvertsEncode (.decode buffer), r, h, answerDecode_of_ok h⟩

/-- A decode that faults is no answer. -/
theorem answerDecode_of_error {buffer : Bytes} {s : State} {f : Fault} (h : frameDecode s.params buffer = .error f) :
    answerDecode buffer s = .fault f := by
  rw [answerDecode, h]

/-- An operation faults under the alternative parameter value only (93 I1). -/
theorem exec_fault {i : Instr} {s : State} {f : Fault} (h : exec i s = .fault f) : s.params.lenLt2 = .fault := by
  obtain ⟨crcReg, acc, r, -, -, go⟩ | ⟨policy, -⟩ := exec_answersFromBlock i s
  · have e := h.symm.trans (go s.pending s.responses)
    cases e
  · exact policy

/-- Settles O27 (the parameter value is an offered one: log entry 9): a short field of value 0 is complete by itself. -/
theorem faultsOnlyByLengthPolicy : Obligations.FaultsOnlyByLengthPolicy := by
  refine ⟨fun _ _ _ h => exec_fault h, fun s hc t policy => ?_⟩
  have announced := announced_shortField s.params.im0 s.params.im1 hc 0#7 t
  obtain ⟨-, faults⟩ := frameDecode_lt_two announced (Nat.zero_le t.length) (by decide)
  exact answerDecode_of_error (faults policy)

end Sys2Proof.Machine
end

section
/-! PROOFS. The stream reassembler (43_reassembler.md): the marker scan, the feed loop as equations by its lines and as
the procedure they write, the operations `FEED`, `RX_CLEAR` and `NOP`, and a frame fed byte by byte. -/

namespace Sys2Proof.Machine

/-! ## The marker scan -/

section
variable {p : Params}

/-- The least occurrence of the inbound marker stands at offset `i` (43_reassembler.md R141). -/
def FirstMarkerAt (p : Params) (a : Bytes) (i : Nat) : Prop := MarkerAt p a i ∧ ∀ j, j < i → ¬ MarkerAt p a j

theorem firstMarkerAt_zero {a : Bytes} : FirstMarkerAt p a 0 ↔ MarkerAt p a 0 := by simp [FirstMarkerAt]

theorem firstMarkerAt_cons_succ {x : Byte} {a : Bytes} {i : Nat} :
    FirstMarkerAt p (x :: a) (i + 1) ↔ ¬ MarkerAt p (x :: a) 0 ∧ FirstMarkerAt p a i := by
  simp only [FirstMarkerAt, markerAt_cons_succ, Nat.forall_lt_succ_left]
  tauto

/-- Where the marker stands, it stands at a least offset. -/
theorem MarkerAt.exists_first {a : Bytes} {i : Nat} (h : MarkerAt p a i) : ∃ k, FirstMarkerAt p a k := by
  classical
  have occurs : ∃ k, MarkerAt p a k := ⟨i, h⟩
  exact ⟨Nat.find occurs, Nat.find_spec occurs, fun _ => Nat.find_min occurs⟩

/-- The scan stops at the least occurrence: a pair that is no marker shifts the search by one byte. -/
theorem findMarker_eq_some_iff {a : Bytes} {i : Nat} : findMarker p a = some i ↔ FirstMarkerAt p a i := by
  induction a generalizing i with
  | nil => simp [findMarker, FirstMarkerAt, MarkerAt]
  | cons x a ih =>
    cases a with
    | nil => simp [findMarker, FirstMarkerAt, MarkerAt]
    | cons y rest =>
      have here := markerAt_cons_zero p x y rest
      rw [findMarker]
      by_cases c : x = p.im0 ∧ y = p.im1
      · have marker := here.mpr c
        rw [if_pos c]
        cases i with
        | zero => simp [firstMarkerAt_zero, marker]
        | succ i => simp [firstMarkerAt_cons_succ, marker]
      · have noMarker : ¬ MarkerAt p (x :: y :: rest) 0 := fun m => c (here.mp m)
        rw [if_neg c]
        cases i with
        | zero => cases findMarker p (y :: rest) <;> simp [firstMarkerAt_zero, noMarker]
        | succ i =>
          rw [firstMarkerAt_cons_succ, ← ih]
          cases findMarker p (y :: rest) <;> simp [noMarker]

/-- The scan ends empty-handed where the marker stands nowhere. -/
theorem findMarker_eq_none_iff {a : Bytes} : findMarker p a = none ↔ ∀ i, ¬ MarkerAt p a i := by
  constructor
  · intro none i at_i
    obtain ⟨k, first⟩ := at_i.exists_first
    rw [findMarker_eq_some_iff.mpr first] at none
    cases none
  · intro nowhere
    rw [Option.eq_none_iff_forall_ne_some]
    intro i found
    exact nowhere i (findMarker_eq_some_iff.mp found).1

end

/-- Settles O30, by `findMarker_eq_some_iff` and `findMarker_eq_none_iff`. -/
theorem findMarkerIsLeast : Obligations.FindMarkerIsLeast :=
  fun _ _ => ⟨fun _ => findMarker_eq_some_iff, findMarker_eq_none_iff⟩

/-- What stands at an offset stands at the front once the bytes before it are dropped. -/
theorem MarkerAt.drop {p : Params} {a : Bytes} {i : Nat} (h : MarkerAt p a i) : MarkerAt p (a.drop i) 0 := by
  obtain ⟨inside, first, second⟩ := h
  exact ⟨by rw [List.length_drop]; omega, by rwa [List.getElem?_drop], by rwa [List.getElem?_drop]⟩

/-! ## The loop, line by line -/

/-- The loop from a label on, with one pass more than the bytes held, which is always enough (43_reassembler.md R149). -/
def loopFrom (p : Params) (label : Label) (acc : Bytes) (emitted : List Bytes) : Except Fault Reassembly :=
  feedLoop p (acc.length + 1) label acc emitted

/-- `Reassemble` is the loop from S1 on the appended accumulator (43_reassembler.md R142). -/
theorem reassemble_eq_loopFrom (p : Params) (acc0 chunk : Bytes) :
    reassemble p acc0 chunk = loopFrom p .s1 (acc0 ++ chunk) [] := rfl

section
variable {p : Params} {acc : Bytes} (emitted : List Bytes)

theorem loopFrom_s1_of_short (h : acc.length < 4) : loopFrom p .s1 acc emitted = .ok ⟨acc, emitted, .tooShort⟩ := by
  rw [loopFrom, feedLoop, if_pos ⟨rfl, h⟩]

theorem loopFrom_s1_of_long (h : 4 ≤ acc.length) : loopFrom p .s1 acc emitted = loopFrom p .s2 acc emitted := by
  have long : ¬ (Label.s1 = .s1 ∧ acc.length < Config.minDecodeBytes) := fun c => Nat.not_lt.mpr h c.2
  rw [loopFrom, loopFrom, feedLoop, feedLoop, if_neg long, if_neg (by simp)]

theorem loopFrom_s2_of_no_marker (h : ∀ i, ¬ MarkerAt p acc i) :
    loopFrom p .s2 acc emitted = .ok ⟨[], emitted, .cleared⟩ := by
  rw [loopFrom, feedLoop, if_neg (by simp), findMarker_eq_none_iff.mpr h]

theorem loopFrom_s2_of_noise {i : Nat} (h : FirstMarkerAt p acc i) (pos : 0 < i) :
    loopFrom p .s2 acc emitted = loopFrom p .s1 (acc.drop i) emitted := by
  obtain ⟨k, rfl⟩ := Nat.exists_eq_add_of_lt pos
  have inside := h.1.1
  rw [loopFrom, feedLoop, if_neg (by simp), findMarker_eq_some_iff.mpr h]
  exact feedLoop_fuel_eq (by rw [List.length_drop]; omega) (Nat.lt_succ_self _)

theorem loopFrom_s2_of_incomplete (h : MarkerAt p acc 0) (d : frameDecode p acc = .ok .incomplete) :
    loopFrom p .s2 acc emitted = .ok ⟨acc, emitted, .waiting⟩ := by
  rw [loopFrom, feedLoop, if_neg (by simp), findMarker_eq_some_iff.mpr (firstMarkerAt_zero.mpr h)]
  simp only [d]

theorem loopFrom_s2_of_invalid (h : MarkerAt p acc 0) (d : frameDecode p acc = .ok .invalid) :
    loopFrom p .s2 acc emitted = loopFrom p .s2 (acc.drop 2) emitted := by
  have inside := h.1
  rw [loopFrom, feedLoop, if_neg (by simp), findMarker_eq_some_iff.mpr (firstMarkerAt_zero.mpr h)]
  simp only [d]
  exact feedLoop_fuel_eq (by rw [List.length_drop]; omega) (Nat.lt_succ_self _)

theorem loopFrom_s2_of_valid {hs total : Nat} {payload : Bytes} (h : MarkerAt p acc 0)
    (d : frameDecode p acc = .ok (.valid hs total payload)) :
    loopFrom p .s2 acc emitted = loopFrom p .s1 (acc.drop total) (emitted ++ [payload]) := by
  obtain ⟨six, inside⟩ := frameDecode_valid_bounds d
  rw [loopFrom, feedLoop, if_neg (by simp), findMarker_eq_some_iff.mpr (firstMarkerAt_zero.mpr h)]
  simp only [d]
  exact feedLoop_fuel_eq (by rw [List.length_drop]; omega) (Nat.lt_succ_self _)

end

/-! ## The loop and the procedure -/

/-- The procedure reaches `c'` from `c` in finitely many passes (43_reassembler.md R140). -/
abbrev Reaches (p : Params) : Control → Control → Prop := Relation.ReflTransGen (Pass p)

/-- Past the length test of S1, the procedure stands at S2 with the same bytes. -/
theorem reaches_s2 {p : Params} {label : Label} {acc : Bytes} (emitted : List Bytes)
    (h : ¬ (label = .s1 ∧ acc.length < 4)) :
    Reaches p (.running label acc emitted) (.running .s2 acc emitted) := by
  cases label with
  | s1 => exact .single (.s1Scan acc emitted (Nat.le_of_not_lt fun short => h ⟨rfl, short⟩))
  | s2 => exact .refl

/-- Each pass of the loop is a line or two of the procedure, so the procedure reaches what the loop answers. -/
theorem reaches_of_feedLoop {p : Params} (fuel : Nat) :
    ∀ {label : Label} {acc : Bytes} {emitted : List Bytes} {r : Reassembly}, acc.length < fuel →
      feedLoop p fuel label acc emitted = .ok r → Reaches p (.running label acc emitted) (.stopped r) := by
  induction fuel with
  | zero => intro label acc emitted r enough; omega
  | succ k ih =>
    intro label acc emitted r enough h
    obtain ⟨rfl, short, e⟩ | ⟨long, arm⟩ := feedLoop_succ p label acc emitted
    · rw [e] at h; cases h
      exact .single (.s1Stop acc emitted short)
    · refine (reaches_s2 emitted long).trans ?_
      obtain ⟨m, e⟩ | ⟨i, m, e⟩ | ⟨m, ⟨f, -, e⟩ | ⟨d, e⟩ | ⟨d, e⟩ | ⟨hs, total, payload, d, e⟩⟩ := arm
      all_goals rw [e] at h
      · cases h
        exact .single (.s3 acc emitted (findMarker_eq_none_iff.mp m))
      · have := findMarker_lt m
        obtain ⟨here, least⟩ := findMarker_eq_some_iff.mp m
        exact .head (.s4 acc emitted (i + 1) here least i.succ_pos) (ih (by rw [List.length_drop]; omega) h)
      · cases h
      · cases h
        exact .single (.s5Incomplete acc emitted (findMarker_eq_some_iff.mp m).1 d)
      · have := frameDecode_invalid_length d
        exact .head (.s5Invalid acc emitted (findMarker_eq_some_iff.mp m).1 d) (ih (by rw [List.length_drop]; omega) h)
      · have := frameDecode_valid_bounds d
        exact .head (.s5Valid acc emitted hs total payload (findMarker_eq_some_iff.mp m).1 d)
          (ih (by rw [List.length_drop]; omega) h)

/-- What the loop answers from where the procedure stands. -/
def Control.outcome (p : Params) : Control → Except Fault Reassembly
  | .running label acc emitted => loopFrom p label acc emitted
  | .stopped r => .ok r

/-- A line of the procedure keeps the loop's answer. -/
theorem Pass.outcome_eq {p : Params} {c c' : Control} (h : Pass p c c') : c.outcome p = c'.outcome p := by
  cases h with
  | s1Stop acc emitted h => exact loopFrom_s1_of_short emitted h
  | s1Scan acc emitted h => exact loopFrom_s1_of_long emitted h
  | s3 acc emitted h => exact loopFrom_s2_of_no_marker emitted h
  | s4 acc emitted i h least pos => exact loopFrom_s2_of_noise emitted ⟨h, least⟩ pos
  | s5Incomplete acc emitted h d => exact loopFrom_s2_of_incomplete emitted h d
  | s5Invalid acc emitted h d => exact loopFrom_s2_of_invalid emitted h d
  | s5Valid acc emitted hs total payload h d => exact loopFrom_s2_of_valid emitted h d

/-- So does any number of lines. -/
theorem Reaches.outcome_eq {p : Params} {c c' : Control} (h : Reaches p c c') : c.outcome p = c'.outcome p := by
  induction h with
  | refl => rfl
  | tail _ pass ih => exact ih.trans pass.outcome_eq

/-- Settles O31: each pass of the loop is made of the procedure's lines, and each line keeps what the loop answers. -/
theorem reassembleRunsTheProcedure : Obligations.ReassembleRunsTheProcedure :=
  fun _ _ _ _ => ⟨reaches_of_feedLoop _ (Nat.lt_succ_self _), Reaches.outcome_eq⟩

/-! ## What the procedure keeps, drops and emits -/

/-- Settles O33: the stop at S1, and the one at S3. -/
theorem shortInputKeptNoiseCleared : Obligations.ShortInputKeptNoiseCleared := by
  intro p acc0 chunk
  rw [reassemble_eq_loopFrom]
  exact ⟨fun short => loopFrom_s1_of_short [] short,
    fun long nowhere => (loopFrom_s1_of_long [] long).trans (loopFrom_s2_of_no_marker [] nowhere)⟩

/-- Settles O34: line S4; with the marker at offset 0 there is nothing to drop. -/
theorem noiseBeforeMarkerDropped : Obligations.NoiseBeforeMarkerDropped := by
  intro p acc0 chunk i long here least
  refine ⟨(markerAt_zero_iff_take p _).mp here.drop, ?_⟩
  cases i with
  | zero => exact reassemble_append p acc0 chunk
  | succ i => exact (loopFrom_s1_of_long [] long).trans (loopFrom_s2_of_noise [] ⟨here, least⟩ i.succ_pos)

/-- Settles O35: the three arms of S5; a payload emitted here stands in front of those emitted later. -/
theorem candidateArms : Obligations.CandidateArms := by
  rintro p acc0 chunk a rfl long marker
  rw [reassemble_eq_loopFrom, loopFrom_s1_of_long [] long]
  refine ⟨loopFrom_s2_of_incomplete [] marker, loopFrom_s2_of_invalid [] marker, fun hs total payload d => ?_⟩
  rw [loopFrom_s2_of_valid [] marker d]
  exact feedLoop_emitted p _ .s1 _ [payload]

/-- Settles O36, by `feedLoop_stopSettled`. -/
theorem feedStopsSettled : Obligations.FeedStopsSettled :=
  fun _ _ _ _ h => feedLoop_stopSettled _ (Nat.lt_succ_self _) h

/-- Bytes that meet the invariant of 10_state.md R31 are all kept, and nothing is emitted. -/
theorem reassemble_of_settled {p : Params} {acc0 chunk : Bytes} (h : accSettled p (acc0 ++ chunk)) :
    ∃ stop, reassemble p acc0 chunk = .ok ⟨acc0 ++ chunk, [], stop⟩ := by
  obtain short | ⟨long, marker, waits⟩ := h
  · exact ⟨.tooShort, loopFrom_s1_of_short [] short⟩
  · have aligned := (markerAt_zero_iff_take p _).mpr marker
    exact ⟨.waiting, (loopFrom_s1_of_long [] long).trans (loopFrom_s2_of_incomplete [] aligned waits)⟩

/-! ## The operations -/

/-- A chunk within the capacity passes the test (20_memory.md R47). -/
theorem overflows_eq_false {s : State} {chunk : Bytes}
    (fits : ∀ cap, s.params.accCap = some cap → s.acc.length + chunk.length ≤ cap) : overflows s chunk = false := by
  rw [Bool.eq_false_iff, ne_eq, overflows_iff]
  rintro ⟨cap, hc, exceeds⟩
  have := fits cap hc
  omega

/-- A `FEED` within the capacity answers with what the loop emits and keeps what it leaves (43_reassembler.md R148). -/
theorem execFeed_of_reassemble {s : State} {chunk : Bytes} {r : Reassembly}
    (fits : ∀ cap, s.params.accCap = some cap → s.acc.length + chunk.length ≤ cap)
    (h : reassemble s.params s.acc chunk = .ok r) :
    execFeed chunk s = .next ((s.setAcc r.acc).respond (.ok (.emitted r.emitted))) := by
  simp [execFeed, overflows_eq_false fits, h]

/-- Settles O32: under the normative policy the loop has a result, and beyond the capacity the test refuses. -/
theorem feedReturnsEmitted : Obligations.FeedReturnsEmitted := by
  constructor
  · intro s chunk normative fits
    obtain ⟨r, h⟩ := feedLoop_total normative ((s.acc ++ chunk).length + 1) .s1 (s.acc ++ chunk) []
    exact ⟨decodeInvertsEncode (.feed chunk), r, h, execFeed_of_reassemble fits h⟩
  · intro s chunk cap hc exceeds
    have refused : overflows s chunk = true := (overflows_iff s chunk).mpr ⟨cap, hc, exceeds⟩
    exact if_pos refused

/-- Settles O37: the invariant's bytes are all kept, and they are within the capacity. -/
theorem emptyFeedChangesNothing : Obligations.EmptyFeedChangesNothing := by
  rintro s ⟨settled, capped⟩
  rw [← List.append_nil s.acc] at settled
  obtain ⟨stop, kept⟩ := reassemble_of_settled settled
  have fed := execFeed_of_reassemble ((accWithinCap_iff _ _).mp capped) kept
  rw [List.append_nil] at fed
  exact fed

/-- Settles O38: the arm of `RX_CLEAR`. -/
theorem rxClearEmptiesAccumulator : Obligations.RxClearEmptiesAccumulator :=
  fun _ => ⟨decodeInvertsEncode .rxClear, rfl⟩

/-- Settles O39: the arm of `NOP`. -/
theorem nopChangesNothing : Obligations.NopChangesNothing :=
  fun _ => ⟨decodeInvertsEncode .nop, rfl⟩

/-! ## A frame fed byte by byte -/

/-- An incomplete candidate meets the invariant of 10_state.md R31. -/
theorem accSettled_of_incomplete {p : Params} {acc : Bytes} (h : frameDecode p acc = .ok .incomplete) :
    accSettled p acc := by
  obtain short | ⟨long, m0, m1⟩ := frameDecode_incomplete h
  · exact .inl short
  · exact .inr ⟨long, by rw [take_two_eq_byteAt (by omega), m0, m1]; rfl, h⟩

/-- A valid frame with nothing behind it is emitted whole and leaves nothing. -/
theorem reassemble_of_valid {p : Params} {acc0 chunk payload : Bytes} {hs : Nat}
    (h : frameDecode p (acc0 ++ chunk) = .ok (.valid hs (acc0 ++ chunk).length payload)) :
    reassemble p acc0 chunk = .ok ⟨[], [payload], .tooShort⟩ := by
  obtain ⟨complete, -⟩ := frameDecode_valid h
  have marker := (markerAt_zero_iff_take p _).mpr complete.take_marker
  rw [reassemble_eq_loopFrom, loopFrom_s1_of_long [] complete.long, loopFrom_s2_of_valid [] marker h, List.drop_length]
  exact loopFrom_s1_of_short _ (by simp)

/-- A `FEED` at the head of a program runs as one step (43_reassembler.md R148). -/
theorem run_feed {s : State} {chunk : Bytes} {r : Reassembly} (k : Nat) (is : List Instr)
    (fits : ∀ cap, s.params.accCap = some cap → s.acc.length + chunk.length ≤ cap)
    (h : reassemble s.params s.acc chunk = .ok r) :
    core.run (k + 1) (s.withProgram (.feed chunk :: is)) =
      core.run k (State.withProgram ((s.setAcc r.acc).respond (.ok (.emitted r.emitted))) is) :=
  run_withProgram_cons k (execFeed_of_reassemble (s := s.withProgram is) fits h)

/-- One `FEED` a byte appends the bytes and emits nothing, as long as no byte completes or breaks a candidate, before
any program that follows. -/
theorem run_feedBytes (k : Nat) (is : List Instr) (data : Bytes) (s : State)
    (settled : ∀ n, n ≤ data.length → accSettled s.params (s.acc ++ data.take n))
    (fits : ∀ cap, s.params.accCap = some cap → s.acc.length + data.length ≤ cap) :
    core.run (data.length + k) (s.withProgram (data.map (fun b => .feed [b]) ++ is)) =
      core.run k (State.withProgram
        { s with
          acc := s.acc ++ data
          responses := s.responses ++ List.replicate data.length (.ok (.emitted [])) } is) := by
  induction data generalizing s with
  | nil => simp
  | cons b data ih =>
    have one : accSettled s.params (s.acc ++ [b]) := settled 1 (Nat.le_add_left 1 _)
    obtain ⟨stop, kept⟩ := reassemble_of_settled one
    have room (cap : Nat) (hc : s.params.accCap = some cap) : s.acc.length + 1 + data.length ≤ cap := by
      have := fits cap hc
      rw [List.length_cons] at this
      omega
    rw [List.length_cons, Nat.add_right_comm, List.map_cons, List.cons_append,
      run_feed _ _ (fun cap hc => Nat.le_of_add_right_le (room cap hc)) kept, ih]
    · simp [State.respond, State.setAcc, List.replicate_succ]
    · intro n hn
      simpa using settled (n + 1) (Nat.succ_le_succ hn)
    · simpa using room

/-- Settles O40: what is held before the last byte is fewer bytes than the frame occupies, so it is incomplete; the last
byte makes it valid. -/
theorem frameFedByteByByte : Obligations.FrameFedByteByByte := by
  rintro s hc payload frame empty small rfl fits
  have valid := frameDecode_mkInbound s.params hc small
  have nonempty : mkInbound s.params hc payload ≠ [] := by
    rw [← List.length_pos_iff, mkInbound_length]
    omega
  obtain ⟨init, last, split⟩ := ((mkInbound s.params hc payload).eq_nil_or_concat').resolve_left nonempty
  rw [split] at valid fits ⊢
  rw [List.length_append, List.length_singleton] at fits ⊢
  have settled (n : Nat) (hn : n ≤ init.length) : accSettled s.params (s.acc ++ init.take n) := by
    have waits := frameDecode_take_incomplete valid (n := n) (by rw [List.length_append, List.length_singleton]; omega)
    rw [List.take_append_of_le_length hn] at waits
    rw [empty]
    exact accSettled_of_incomplete waits
  have room (cap : Nat) (hcap : s.params.accCap = some cap) : s.acc.length + init.length ≤ cap := by
    have := fits cap hcap
    rw [empty, List.length_nil]
    omega
  have fed := run_feedBytes 1 [.feed [last]] init s settled room
  rw [empty, List.nil_append] at fed
  rw [expandPseudo, List.map_append, List.map_singleton, fed, run_feed 0 [] fits (reassemble_of_valid valid)]
  simp [State.respond, State.setAcc, State.withProgram, invocations]

end Sys2Proof.Machine
end

section
/-! PROOFS. Context (44_context_software.md): which payloads are state reports, and that every controller state comes out
of a frame with a right checksum. -/

namespace Sys2Proof.Machine

/-! ## State reports -/

/-- Settles O59: a parsed payload passed the test of length and tag, and the test is the only way to get no state. -/
theorem stateReportParsedWhole : Obligations.StateReportParsedWhole := by
  intro order extended payload
  constructor
  · intro parsed
    obtain ⟨c, h⟩ := Option.isSome_iff_exists.mp parsed
    exact parseState_some h
  · rintro ⟨long, tag⟩
    have passes : ¬ (payload.length < 14 ∨ byteAt payload 0 ≠ 0x60#8) :=
      not_or.mpr ⟨Nat.not_lt.mpr long, not_not.mpr tag⟩
    rw [parseState, if_neg passes, Option.isSome_some]

/-! ## Frames inside a stream -/

/-- The first `n` bytes, two or more, end in the two bytes that stand before offset `n`. -/
theorem take_eq_take_append_trailer {buffer : Bytes} {n : Nat} (two : 2 ≤ n) (inside : n ≤ buffer.length) :
    buffer.take n = buffer.take (n - 2) ++ [byteAt buffer (n - 2), byteAt buffer (n - 1)] := by
  obtain ⟨k, rfl⟩ := Nat.exists_eq_add_of_le' two
  rw [List.take_add_one, List.take_add_one, getElem?_eq_byteAt (by omega), getElem?_eq_byteAt (by omega)]
  simp

/-- The residue over a valid frame is zero (42_frame_decode.md R128). -/
theorem crc16_take_of_valid {p : Params} {buffer payload : Bytes} {hs total : Nat}
    (h : frameDecode p buffer = .ok (.valid hs total payload)) : crc16 (buffer.take total) 0x0000#16 = 0x0000#16 := by
  obtain ⟨-, -, -, -, -, right⟩ := frameDecode_valid h
  obtain ⟨six, inside⟩ := frameDecode_valid_bounds h
  rw [take_eq_take_append_trailer (by omega) inside]
  exact (checksumTestIsResidueTest _ _ _).mp right

/-- `frame` is a whole valid frame that carries `payload`: the inbound marker, a zero residue, and `Decode`'s result. -/
def FrameOf (p : Params) (frame payload : Bytes) : Prop :=
  frame.take 2 = p.inMarker ∧ crc16 frame 0x0000#16 = 0x0000#16 ∧
    ∃ headerSize, frameDecode p frame = .ok (.valid headerSize frame.length payload)

/-- The bytes that a valid result says are occupied are such a frame. -/
theorem frameOf_take_of_valid {p : Params} {buffer payload : Bytes} {hs total : Nat}
    (h : frameDecode p buffer = .ok (.valid hs total payload)) : FrameOf p (buffer.take total) payload := by
  have alone := frameDecode_take h
  obtain ⟨complete, -⟩ := frameDecode_valid alone
  obtain ⟨-, inside⟩ := frameDecode_valid_bounds h
  refine ⟨complete.take_marker, crc16_take_of_valid h, hs, ?_⟩
  rw [List.length_take_of_le inside]
  exact alone

/-- Every payload a `FEED` emits is carried by a valid frame inside the bytes held and fed (43_reassembler.md R153). -/
theorem exists_frameOf_of_emitted {p : Params} {acc0 chunk payload : Bytes} {r : Reassembly}
    (h : reassemble p acc0 chunk = .ok r) (emitted : payload ∈ r.emitted) :
    ∃ before frame after, acc0 ++ chunk = before ++ frame ++ after ∧ FrameOf p frame payload := by
  obtain old | ⟨n, hs, total, valid⟩ := feedLoop_emitted_valid _ h payload emitted
  · cases old
  · refine ⟨(acc0 ++ chunk).take n, ((acc0 ++ chunk).drop n).take total, ((acc0 ++ chunk).drop n).drop total, ?_,
      frameOf_take_of_valid valid⟩
    rw [List.append_assoc, List.take_append_drop, List.take_append_drop]

/-! ## What a step emits, and what becomes of it -/

/-- A step only adds responses, and the payloads it adds were emitted by the loop of the `FEED` that was invoked. -/
theorem step_payloads {s t : State} (h : step s = .next t) :
    ∃ new, t.responses = s.responses ++ new ∧ ∀ payload ∈ emittedPayloads new,
      ∃ chunk rest result, s.pending = .invoke (encode (.feed chunk)) :: rest ∧
        reassemble s.params s.acc chunk = .ok result ∧ payload ∈ result.emitted := by
  obtain ⟨-, rfl⟩ | ⟨rest, -, rfl⟩ | ⟨item, rest, i, invoked, d, e⟩ | ⟨item, rest, why, -, -, e⟩ := step_next h
  · exact ⟨[], (List.append_nil _).symm, nofun⟩
  · exact ⟨[], (List.append_nil _).symm, nofun⟩
  · obtain ⟨r, added, quiet | ⟨chunk, result, rfl, looped, payloads⟩⟩ := exec_payloads e
    · exact ⟨[r], added, by simp [quiet]⟩
    · refine ⟨[r], added, fun payload m => ⟨chunk, rest, result, ?_, looped, by simpa [payloads] using m⟩⟩
      rw [invoked, encodeInvertsDecode item _ d]
  · obtain ⟨r, added, quiet⟩ := answerReject_payloads e
    exact ⟨[r], added, by simp [quiet]⟩

/-- A reply's state is one of the streamed ones: the reply is an emitted payload. -/
theorem replyState_mem_streamedStates {order : ButtonsOrder} {extended : Bool} {responses : List Response}
    {c : ControllerState} (h : replyState order extended responses = some c) :
    c ∈ streamedStates order extended responses := by
  obtain ⟨payload, reply, parsed⟩ := Option.bind_eq_some_iff.mp h
  exact mem_streamedStates.mpr ⟨payload, firstReply_mem reply, parsed⟩

/-- Settles O60 (log entries 3, 17, 21 and 22): a state is an emitted payload parsed (`mem_streamedStates`), the payload
is a `FEED`'s (`step_payloads`), and a valid frame carried it (`exists_frameOf_of_emitted`). -/
theorem controllerStatesComeFromValidFrames : Obligations.ControllerStatesComeFromValidFrames := by
  intro order extended
  refine ⟨fun s t h => ?_, fun _ _ => replyState_mem_streamedStates⟩
  obtain ⟨new, added, source⟩ := step_payloads h
  refine ⟨new, added, fun c m => ?_⟩
  obtain ⟨payload, emitted, parsed⟩ := mem_streamedStates.mp m
  obtain ⟨chunk, rest, result, invoked, looped, inResult⟩ := source payload emitted
  obtain ⟨before, frame, after, split, marker, residue, valid⟩ := exists_frameOf_of_emitted looped inResult
  obtain ⟨-, tag⟩ := parseState_some parsed
  exact ⟨chunk, rest, before, frame, after, payload, invoked, split, marker, residue, valid, tag, parsed⟩

end Sys2Proof.Machine
end

section
/-! PROOFS. Exceptions (60_exceptions.md): the decode result by its cause, that every operation returns, and the inputs
without a step. -/

namespace Sys2Proof.Machine

/-! ## The causes of a decode result -/

/-- The result column of the table of 60_exceptions.md R191. -/
def Cause.result (buffer : Bytes) : Cause → FrameResult
  | .short4 | .short5 | .shortTotal => .incomplete
  | .marker | .length | .checksum => .invalid
  | .none => .valid (announcedHeader buffer) (announcedTotal buffer)
      (slice buffer (announcedHeader buffer) (announcedTotal buffer - 2))

/-- Bit 7 of the byte at offset 3 tells the header size (30_encoding.md R68). -/
theorem announcedHeader_eq_five_iff (buffer : Bytes) : announcedHeader buffer = 5 ↔ 128 ≤ (byteAt buffer 3).toNat := by
  unfold announcedHeader
  split <;> simp_all

/-- Steps D3 to D5 behind the inbound marker, each by its condition in the table (60_exceptions.md R191). -/
theorem frameDecode_of_marker {p : Params} {buffer : Bytes} (long : 4 ≤ buffer.length)
    (marker : buffer.take 2 = p.inMarker) : frameDecode p buffer =
      if announcedHeader buffer = 5 ∧ buffer.length < 5 then .ok .incomplete
      else if buffer.length < announcedTotal buffer then .ok .incomplete
      else decodeComplete p buffer (announcedLength buffer) (announcedHeader buffer) := by
  have same : ¬ (byteAt buffer 0 ≠ p.im0 ∨ byteAt buffer 1 ≠ p.im1) := by
    rw [take_two_eq_byteAt (by omega), Params.inMarker] at marker
    obtain ⟨m0, m1⟩ := List.cons_eq_cons.mp marker
    simpa [m0] using m1
  rw [frameDecode_eq, if_neg (Nat.not_lt.mpr long), if_neg same]
  simp only [announcedHeader_eq_five_iff]

/-- The stored checksum of the first `n` bytes is right exactly when their residue is zero (42_frame_decode.md R128). -/
theorem frameChecksum_take_eq_iff {buffer : Bytes} {n : Nat} (two : 2 ≤ n) (inside : n ≤ buffer.length) :
    frameChecksum (buffer.take (n - 2)) = u16be (byteAt buffer (n - 2)) (byteAt buffer (n - 1)) ↔
      crc16 (buffer.take n) 0x0000#16 = 0x0000#16 := by
  rw [take_eq_take_append_trailer two inside]
  exact checksumTestIsResidueTest _ _ _

/-- Step D5 under the normative policy: the length first, then the checksum by the residue over the whole candidate. -/
theorem decodeComplete_of_normative {p : Params} {buffer : Bytes} {len hs : Nat} (policy : p.lenLt2 = .invalid)
    (inside : hs + len ≤ buffer.length) : decodeComplete p buffer len hs =
      if len < 2 then .ok .invalid
      else if crc16 (buffer.take (hs + len)) 0x0000#16 ≠ 0x0000#16 then .ok .invalid
      else .ok (.valid hs (hs + len) (slice buffer hs (hs + len - 2))) := by
  obtain ⟨few, -, e⟩ | ⟨-, faulting, -⟩ | ⟨two, wrong, e⟩ | ⟨two, right, e⟩ := decodeComplete_cases p buffer len hs
  · rw [e, if_pos few]
  · rw [policy] at faulting; cases faulting
  · rw [ne_eq, frameChecksum_take_eq_iff (by omega) inside] at wrong
    rw [e, if_neg (Nat.not_lt.mpr two), if_pos wrong]
  · rw [frameChecksum_take_eq_iff (by omega) inside] at right
    rw [e, if_neg (Nat.not_lt.mpr two), if_neg (not_not.mpr right)]

/-- Under the normative policy `Decode` gives the result of the first condition that holds (60_exceptions.md R191). -/
theorem frameDecode_eq_result {p : Params} (policy : p.lenLt2 = .invalid) (buffer : Bytes) :
    frameDecode p buffer = .ok ((frameCause p buffer).result buffer) := by
  rw [frameCause]
  by_cases short : buffer.length < 4
  · rw [frameDecode_eq, if_pos short, if_pos short, Cause.result]
  have long : 4 ≤ buffer.length := Nat.le_of_not_lt short
  rw [if_neg short]
  by_cases marker : buffer.take 2 = p.inMarker
  case neg => rw [frameDecode_of_marker_ne long marker, if_pos marker, Cause.result]
  rw [frameDecode_of_marker long marker, if_neg (not_not.mpr marker)]
  split_ifs with short5 shortTotal few wrong
  · rfl
  · rfl
  all_goals rw [decodeComplete_of_normative policy (Nat.le_of_not_lt shortTotal)]
  · rw [if_pos few, Cause.result]
  · rw [if_neg few, ← announcedTotal, if_pos wrong, Cause.result]
  · rw [if_neg few, ← announcedTotal, if_neg wrong, Cause.result]

/-- The tag 3 is never produced (60_exceptions.md R191). -/
theorem FrameResult.tag_ne_three (r : FrameResult) : r.tag ≠ 3#2 := by
  cases r <;> simp [FrameResult.tag]

/-- Settles O20: `frameDecode_eq_result`, and the tag of each row of the table. -/
theorem decodeFollowsCauseOrder : Obligations.DecodeFollowsCauseOrder := by
  intro p buffer policy
  refine ⟨_, frameDecode_eq_result policy buffer, FrameResult.tag_ne_three _, ?_⟩
  cases frameCause p buffer <;> exact ⟨rfl, rfl⟩

/-! ## Operations return -/

/-- Settles O51: an operation returns one response or faults (`exec_answersFromBlock`), and a fault takes the other
policy. -/
theorem everyOperationReturns : Obligations.EveryOperationReturns := by
  intro i s normative
  obtain ⟨crcReg, acc, r, -, -, go⟩ | ⟨faulting, -⟩ := exec_answersFromBlock i s
  · exact ⟨_, r, go s.pending s.responses, rfl, rfl⟩
  · rw [normative] at faulting
    cases faulting

/-! ## Inputs without a step -/

/-- With nothing pending the fetch finds the block idle (60_exceptions.md R205). -/
theorem fetch_of_pending_nil {s : State} (h : s.pending = []) : fetch s = .idle := by
  rw [fetch, h]

/-- Overlapping invocations are given no step (70_reset_and_hazards.md R232). -/
theorem fetch_overlap (s : State) (first second : Item) (rest : List Event) :
    fetch { s with pending := .overlap first second :: rest } = .noStep .overlappingInvocation := rfl

/-- A reset during an operation is given no step (70_reset_and_hazards.md R221). -/
theorem fetch_resetDuring (s : State) (item : Item) (rest : List Event) :
    fetch { s with pending := .resetDuring item :: rest } = .noStep .resetDuringOperation := rfl

/-- Settles O55 (inputs: log entries 2 and 11): the step keeps the state when the fetch is idle, and refuses by the
fetch's reason when there is no step. -/
theorem idleAndForbiddenInputs : Obligations.IdleAndForbiddenInputs := by
  refine ⟨fun s h => ?_, fun s first second rest => ?_, fun s item rest => ?_⟩
  · rw [step, fetch_of_pending_nil h]
  · rw [step, fetch_overlap]
  · rw [step, fetch_resetDuring]

end Sys2Proof.Machine
end

section
/-! PROOFS. Reset and hazards (70_reset_and_hazards.md): the reset input, where a chunk may be cut, and a frame with a
wrong checksum before a good one. -/

namespace Sys2Proof.Machine

/-! ## The reset input -/

/-- A reset input is taken as it is (70_reset_and_hazards.md R220). -/
theorem fetch_reset (s : State) (rest : List Event) :
    fetch { s with pending := .reset :: rest } = .reset { s with pending := rest } := rfl

/-- Settles O44 (later inputs stay queued: log entry 10): the fetch takes the reset off the inputs, and `applyReset`
writes the two registers. -/
theorem resetInputSetsResetValues : Obligations.ResetInputSetsResetValues := by
  intro s rest
  rw [step, fetch_reset]
  rfl

/-! ## Where a chunk may be cut -/

section
variable {p : Params}

/-- Occurrences behind the first `k` bytes. -/
theorem markerAt_drop_iff {a : Bytes} {k i : Nat} : MarkerAt p (a.drop k) i ↔ MarkerAt p a (k + i) := by
  simp only [MarkerAt, List.length_drop, List.getElem?_drop, Nat.add_assoc]
  rw [show i + 1 < a.length - k ↔ k + (i + 1) < a.length by omega]

/-- The least occurrence stays the least with bytes appended. -/
theorem FirstMarkerAt.append {a : Bytes} {i : Nat} (h : FirstMarkerAt p a i) (b : Bytes) :
    FirstMarkerAt p (a ++ b) i := by
  obtain ⟨here, least⟩ := h
  have inside := here.1
  exact ⟨here.append b, fun j before m => least j before (m.of_append (by omega))⟩

/-- What the owner sees of a run of the loop: the accumulator left and the payloads emitted, not where it stopped. -/
def Reassembly.visible (r : Reassembly) : Bytes × List Bytes := (r.acc, r.emitted)

/-- What the owner sees when the procedure goes on from `c` with the chunk `b` behind the bytes held; from a stop, the
next `FEED` goes on at S1. -/
def Control.visibleWith (p : Params) (b : Bytes) : Control → Except Fault (Bytes × List Bytes)
  | .running label acc emitted => (loopFrom p label (acc ++ b) emitted).map Reassembly.visible
  | .stopped r => (loopFrom p .s1 (r.acc ++ b) r.emitted).map Reassembly.visible

/-- The procedure has stopped in the clear of S3. -/
def Control.Cleared : Control → Prop
  | .running _ _ _ => False
  | .stopped r => r.stop = .cleared

/-- Nothing leads on from a stop. -/
theorem Pass.not_cleared {c c' : Control} (h : Pass p c c') : ¬ c.Cleared := by
  cases h <;> exact id

/-- At the marker, S1 and S2 differ in the name of the stop only: fewer than 4 bytes wait at either label. -/
theorem visible_loopFrom_s2_of_marker {acc : Bytes} (emitted : List Bytes) (h : MarkerAt p acc 0) :
    (loopFrom p .s2 acc emitted).map Reassembly.visible = (loopFrom p .s1 acc emitted).map Reassembly.visible := by
  by_cases short : acc.length < 4
  · have waits : frameDecode p acc = .ok .incomplete := by rw [frameDecode_eq, if_pos short]
    rw [loopFrom_s2_of_incomplete emitted h waits, loopFrom_s1_of_short emitted short]
    rfl
  · rw [loopFrom_s1_of_long emitted (Nat.le_of_not_lt short)]

/-- Every line but the clear of S3 takes bytes away from the front and decides by bytes that are held, so the chunk `b`
may arrive before it or after it (70_reset_and_hazards.md R226). -/
theorem Pass.visibleWith_eq {c c' : Control} (h : Pass p c c') (kept : ¬ c'.Cleared) (b : Bytes) :
    c.visibleWith p b = c'.visibleWith p b := by
  have decided {acc : Bytes} {r : FrameResult} (d : frameDecode p acc = .ok r) (ne : r ≠ .incomplete) :=
    trailingBytesAreIgnored p acc b r d ne
  have dropped {acc : Bytes} {k : Nat} (held : k ≤ acc.length) : (acc ++ b).drop k = acc.drop k ++ b :=
    List.drop_append_of_le_length held
  have line {x y : Except Fault Reassembly} (e : x = y) : x.map Reassembly.visible = y.map Reassembly.visible := by
    rw [e]
  cases h with
  | s1Stop acc emitted short => rfl
  | s1Scan acc emitted long =>
    exact line (loopFrom_s1_of_long emitted (by rw [List.length_append]; omega))
  | s3 acc emitted nowhere => exact absurd rfl kept
  | s4 acc emitted i here least pos =>
    have inside := here.1
    have first : FirstMarkerAt p acc i := ⟨here, least⟩
    exact line (dropped (Nat.lt_of_succ_lt inside).le ▸ loopFrom_s2_of_noise emitted (first.append b) pos)
  | s5Incomplete acc emitted here d => exact visible_loopFrom_s2_of_marker emitted (here.append b)
  | s5Invalid acc emitted here d =>
    have inside := here.1
    exact line (dropped (k := 2) inside ▸ loopFrom_s2_of_invalid emitted (here.append b) (decided d nofun))
  | s5Valid acc emitted hs total payload here d =>
    obtain ⟨-, inside⟩ := frameDecode_valid_bounds d
    exact line (dropped inside ▸ loopFrom_s2_of_valid emitted (here.append b) (decided d nofun))

/-- So may it before or after any number of lines: a clear can only be the last. -/
theorem Reaches.visibleWith_eq {c c' : Control} (h : Reaches p c c') (kept : ¬ c'.Cleared) (b : Bytes) :
    c.visibleWith p b = c'.visibleWith p b := by
  induction h with
  | refl => rfl
  | tail _ pass ih => exact (ih pass.not_cleared).trans (pass.visibleWith_eq kept b)

end

/-- Settles O43: the procedure reaches the first chunk's stop, which is no clear, so the second chunk may stand behind
the first from the start or arrive at the stop; what was emitted by then stands in front. -/
theorem chunkBoundaryHarmlessUnlessCleared : Obligations.ChunkBoundaryHarmlessUnlessCleared := by
  intro p acc0 a b r first notCleared
  have run := (reassembleRunsTheProcedure p acc0 a r).mp first
  have joined : (reassemble p acc0 (a ++ b)).map Reassembly.visible =
      (loopFrom p .s1 (r.acc ++ b) r.emitted).map Reassembly.visible := by
    rw [reassemble_eq_loopFrom, ← List.append_assoc]
    exact Reaches.visibleWith_eq run notCleared b
  have inFront : loopFrom p .s1 (r.acc ++ b) r.emitted =
      (reassemble p r.acc b).map (fun second => { second with emitted := r.emitted ++ second.emitted }) :=
    feedLoop_emitted p _ .s1 (r.acc ++ b) r.emitted
  rw [inFront] at joined
  refine joined.trans ?_
  cases reassemble p r.acc b <;> rfl

/-! ## A wrong checksum before a good frame -/

/-- An inbound frame with another checksum is invalid, whatever stands behind it (42_frame_decode.md R130). -/
theorem frameDecode_of_wrong_checksum {p : Params} {hc hi lo : Byte} {payload body : Bytes}
    (fits : payload.length ≤ 32765) (shape : body = p.inMarker ++ [hc] ++ lenEnc (payload.length + 2) ++ payload)
    (wrong : [hi, lo] ≠ be16 (crc16 body 0x0000#16)) (t : Bytes) :
    frameDecode p (body ++ [hi, lo] ++ t) = .ok .invalid := by
  have frame : mkInbound p hc payload = body ++ be16 (crc16 body 0x0000#16) := by rw [shape]; rfl
  have total : (mkInbound p hc payload).length = body.length + 2 := by rw [frame]; simp
  have valid := trailingBytesAreIgnored p _ t _ (frameDecode_mkInbound p hc fits) nofun
  rw [total, frame] at valid
  exact changedChecksumIsInvalid p body t payload _ _ hi lo _ valid fun same => wrong (by cases same; rfl)

/-- An invalid candidate at the front: the loop goes on from the next marker (43_reassembler.md R146, R147). -/
theorem reassemble_of_invalid {p : Params} {a : Bytes} {n : Nat} (first : MarkerAt p a 0)
    (invalid : frameDecode p a = .ok .invalid) (two : 2 < n) (next : MarkerAt p a n)
    (between : ∀ i, 2 ≤ i → i < n → ¬ MarkerAt p a i) : reassemble p [] a = reassemble p [] (a.drop n) := by
  obtain ⟨k, rfl⟩ := Nat.exists_eq_add_of_le two.le
  have least : FirstMarkerAt p (a.drop 2) k := by
    refine ⟨markerAt_drop_iff.mpr next, fun j before => ?_⟩
    rw [markerAt_drop_iff]
    exact between (2 + j) (by omega) (by omega)
  calc reassemble p [] a
      = loopFrom p .s2 a [] := loopFrom_s1_of_long [] (frameDecode_invalid_length invalid)
    _ = loopFrom p .s2 (a.drop 2) [] := loopFrom_s2_of_invalid [] first invalid
    _ = loopFrom p .s1 ((a.drop 2).drop k) [] := loopFrom_s2_of_noise [] least (by omega)
    _ = reassemble p [] (a.drop (2 + k)) := by rw [List.drop_drop, reassemble_eq_loopFrom, List.nil_append]

/-- Settles O42: `Invalid` drops the first marker alone, and the next marker is the good frame's, since none stands
before it. -/
theorem corruptFrameThenGoodFrame : Obligations.CorruptFrameThenGoodFrame := by
  intro p hc hc' hi lo payload payload' body fits fits' shape wrong between
  have invalid := frameDecode_of_wrong_checksum fits shape wrong (mkInbound p hc' payload')
  have behind : (body ++ [hi, lo] ++ mkInbound p hc' payload').drop (body.length + 2) = mkInbound p hc' payload' :=
    List.drop_left' (by simp)
  have first : MarkerAt p (body ++ [hi, lo] ++ mkInbound p hc' payload') 0 := by
    rw [shape]
    exact (markerAt_cons_zero p _ _ _).mpr ⟨rfl, rfl⟩
  have next : MarkerAt p (body ++ [hi, lo] ++ mkInbound p hc' payload') (body.length + 2) := by
    rw [← Nat.add_zero (body.length + 2), ← markerAt_drop_iff, behind]
    exact (markerAt_cons_zero p _ _ _).mpr ⟨rfl, rfl⟩
  have pos : 0 < body.length := by rw [shape]; simp [Params.inMarker]
  rw [reassemble_of_invalid first invalid (by omega) next between, behind]
  exact reassemble_of_valid (acc0 := []) (frameDecode_mkInbound p hc' fits')

end Sys2Proof.Machine
end

section
/-! PROOFS. One garbage byte before a frame (95_test_vectors.md S3): the marker scan aligns on the frame's own marker. -/

namespace Sys2Proof.Machine

/-- The constructed frame begins with the inbound marker. -/
theorem markerAt_mkInbound (p : Params) (hc : Byte) (payload : Bytes) : MarkerAt p (mkInbound p hc payload) 0 :=
  (markerAt_cons_zero p _ _ _).mpr ⟨rfl, rfl⟩

/-- Behind a byte that makes no marker with the frame's first byte, the frame's own marker is the least one. -/
theorem firstMarkerAt_cons_mkInbound {p : Params} {g : Byte} (hc : Byte) (payload : Bytes)
    (apart : ¬ (g = p.im0 ∧ p.im0 = p.im1)) : FirstMarkerAt p (g :: mkInbound p hc payload) 1 :=
  firstMarkerAt_cons_succ.mpr
    ⟨fun early => apart ((markerAt_cons_zero p g p.im0 _).mp early),
      firstMarkerAt_zero.mpr (markerAt_mkInbound p hc payload)⟩

/-- Settles O41: the byte is noise before the least marker, so it is dropped (43_reassembler.md R146), and the frame
that remains is emitted whole. -/
theorem garbageByteThenFrame : Obligations.GarbageByteThenFrame := by
  intro p g hc payload fits apart
  have long : 4 ≤ (g :: mkInbound p hc payload).length := by
    rw [List.length_cons, mkInbound_length]
    omega
  obtain ⟨here, least⟩ := firstMarkerAt_cons_mkInbound hc payload apart
  obtain ⟨-, dropped⟩ := noiseBeforeMarkerDropped p [] (g :: mkInbound p hc payload) 1 long here least
  exact dropped.trans (reassemble_of_valid (acc0 := []) (frameDecode_mkInbound p hc fits))

end Sys2Proof.Machine
end
